-- ==== Sys2Proof/Config.lean ====
section
/-! DEFINITION. Config: the implementation parameters of spec/00_scope.md rule R5, each numeral once, under its name.

The spec calls the numerals unaudited (93_implementation_defined.md U1; assumption log 13), so no other file writes one
of them as a bare number where it means one of these. The three OPEN parameters of R5 are not numbers here: XW is
unbounded (operands are natural numbers, log 8), STREAM_LEN is the length of the stream held in the state, and
REPORT_RANGE is held in the state. -/

namespace Sys2Proof

/-- The four mnemonics of the instruction set (R50, R59), as the index of the per-opcode table of R5. Their spelling is
`Mnemonic.text`, in Decode.lean. -/
inductive Mnemonic where
  | loadConst
  | readMem
  | writeMem
  | mod
deriving DecidableEq, Repr

namespace Config

/-- WORD_BITS: bits in an instruction word. -/
abbrev wordBits : Nat := 40
/-- WORD_BYTES: bytes in an instruction word. -/
abbrev wordBytes : Nat := 5
/-- OPC_W: width of the opcode field, at ENC and at DEC. -/
abbrev opcWidth : Nat := 7
/-- B_W: width of OperandB, at ENC (every mnemonic) and at DEC. -/
abbrev bWidth : Nat := 7
/-- C_DEC_W: width of OperandC at DEC, for every opcode. -/
abbrev cDecWidth : Nat := 14
/-- C_ENC_W(LOAD_CONST): width of OperandC at ENC. -/
abbrev cEncWidthLoadConst : Nat := 14
/-- C_ENC_W(READ_MEM). -/
abbrev cEncWidthReadMem : Nat := 7
/-- C_ENC_W(WRITE_MEM). -/
abbrev cEncWidthWriteMem : Nat := 9
/-- C_ENC_W(MOD). -/
abbrev cEncWidthMod : Nat := 7
/-- OPC(LOAD_CONST). -/
abbrev opcLoadConst : Nat := 121
/-- OPC(READ_MEM). -/
abbrev opcReadMem : Nat := 18
/-- OPC(WRITE_MEM). -/
abbrev opcWriteMem : Nat := 44
/-- OPC(MOD). -/
abbrev opcMod : Nat := 4
/-- MEM_SIZE: number of memory cells, addresses 0 to 49. -/
abbrev memSize : Nat := 50
/-- PC_STEP: bytes the program counter advances per fetch. -/
abbrev pcStep : Nat := 5
/-- CELL_W: bits that hold every value a cell can take (derived in R16). The largest such value is `2 ^ cellWidth - 1`. -/
abbrev cellWidth : Nat := 14
/-- What a cell that the memory list does not list reads as: the reset value of every cell (R25). -/
abbrev cellAtReset : Nat := 0

end Config

end Sys2Proof
end

