-- ==== Sys2Proof/Word.lean ====
section
/-! DEFINITION. Word: the byte, the 40-bit instruction word, and the five bytes of a word in stream order.

Only these are bit vectors. Operands, cell addresses, cell contents and the program counter are natural numbers, as
spec/00_scope.md rule R8 and spec/10_state.md rules R13 and R16 have them (assumption log 7 and 8). -/

namespace Sys2Proof

/-- One byte of the instruction stream. -/
abbrev Byte := BitVec 8

/-- An instruction word of WORD_BITS bits, numbered 39 down to 0, bit 0 the least significant (R6, R45). -/
abbrev Word := BitVec Config.wordBits

/-- The five bytes of a word, `b0` the byte at the lowest stream offset (R31, R45). -/
structure WordBytes where
  b0 : Byte
  b1 : Byte
  b2 : Byte
  b3 : Byte
  b4 : Byte
deriving DecidableEq, Repr

end Sys2Proof
end

