-- ==== Sys2Proof/Syntax.lean ====
section
/-! DEFINITION. Syntax: the instruction set, one constructor per row of spec/opcode_table.json (R50: "The opcode alone
selects the operation"). A word with any other opcode is no instruction: the executor logs it and goes on
(R117; Machine/Loop.lean). -/

namespace Sys2Proof

/-- An instruction. `b` is OperandB and `c` is OperandC, for every mnemonic (R59); both are unsigned (R8). The range
each field can hold is checked by `Instr.wf` (WellFormed.lean). -/
inductive Instr where
  /-- LOAD_CONST, R112: cell `b` receives the constant `c`. -/
  | loadConst (b c : Nat)
  /-- READ_MEM, R113: cell `b` receives the cell whose address is in cell `c`. -/
  | readMem (b c : Nat)
  /-- WRITE_MEM, R114: cell `b` receives cell `c`. -/
  | writeMem (b c : Nat)
  /-- MOD, R115 and R116: cell `b` receives cell `b` modulo cell `c`, when cell `c` is not zero. -/
  | mod (b c : Nat)
deriving DecidableEq, Repr

/-- Which row of the opcode table an instruction belongs to. -/
def Instr.mnemonic : Instr → Mnemonic
  | .loadConst _ _ => .loadConst
  | .readMem _ _ => .readMem
  | .writeMem _ _ => .writeMem
  | .mod _ _ => .mod

/-- OperandB of an instruction. -/
def Instr.opB : Instr → Nat
  | .loadConst b _ => b
  | .readMem b _ => b
  | .writeMem b _ => b
  | .mod b _ => b

/-- OperandC of an instruction. -/
def Instr.opC : Instr → Nat
  | .loadConst _ c => c
  | .readMem _ c => c
  | .writeMem _ c => c
  | .mod _ c => c

/-- The instruction of a mnemonic with its two operands. -/
def Instr.ofMnemonic : Mnemonic → Nat → Nat → Instr
  | .loadConst, b, c => .loadConst b c
  | .readMem, b, c => .readMem b c
  | .writeMem, b, c => .writeMem b c
  | .mod, b, c => .mod b c

end Sys2Proof
end

