-- ==== Sys2Proof/WellFormed.lean ====
section
/-! DEFINITION. WellFormed: which terms of `Instr` the decoder can deliver.

An instruction is well-formed when both operands fit the fields of format D (spec/30_encoding.md rule R47): OperandB in
7 bits, OperandC in 14 bits, for every opcode alike. Being below MEM_SIZE is no part of it: DEC does not know MEM_SIZE
(R100), and an address of 50 or more is met at execution (R36). The narrower range that ENC accepts is `Instr.canonical`
(Decode.lean, R52). -/

namespace Sys2Proof

/-- The check on OperandB: it fits the 7-bit field. -/
def operandBFits (b : Nat) : Bool := decide (b < 2 ^ Config.bWidth)

/-- The check on OperandC: it fits the decoder's 14-bit field. -/
def operandCFits (c : Nat) : Bool := decide (c < 2 ^ Config.cDecWidth)

/-- Both operands fit the fields of format D. -/
def Instr.wf : Instr → Bool
  | .loadConst b c => operandBFits b && operandCFits c
  | .readMem b c => operandBFits b && operandCFits c
  | .writeMem b c => operandBFits b && operandCFits c
  | .mod b c => operandBFits b && operandCFits c

end Sys2Proof
end

