-- ==== Sys2Proof/Decode.lean ====
section
/-! DEFINITION. Decode: byte order, bit fields, the opcode map, the decoder DEC (spec/42_decoder.md), and after it the
encoder of well-formed instructions in the decoder's own layout (format D).

Two layouts exist (R46). DEC reads format D of every word. ENC writes the narrower formats E: that side is
Machine/Pack.lean and Machine/Encoder.lean, and `Instr.canonical` says which instructions it can write. -/

namespace Sys2Proof

/-! ### The per-opcode table (R5, R48, R50) -/

/-- OPC(m): the opcode value of a mnemonic. -/
def opc : Mnemonic → Nat
  | .loadConst => Config.opcLoadConst
  | .readMem => Config.opcReadMem
  | .writeMem => Config.opcWriteMem
  | .mod => Config.opcMod

/-- C_ENC_W(m): how many bits of OperandC the encoder writes. The table is "used only by the Encoder" (R11). -/
def encWidthC : Mnemonic → Nat
  | .loadConst => Config.cEncWidthLoadConst
  | .readMem => Config.cEncWidthReadMem
  | .writeMem => Config.cEncWidthWriteMem
  | .mod => Config.cEncWidthMod

/-- The text of a mnemonic, upper case, as the spec spells it (R59). -/
def Mnemonic.text : Mnemonic → String
  | .loadConst => "LOAD_CONST"
  | .readMem => "READ_MEM"
  | .writeMem => "WRITE_MEM"
  | .mod => "MOD"

/-- The mnemonic a token spells, matched exactly and case-sensitively (R90). -/
def mnemonicOfText (token : String) : Option Mnemonic :=
  if token = "LOAD_CONST" then some .loadConst
  else if token = "READ_MEM" then some .readMem
  else if token = "WRITE_MEM" then some .writeMem
  else if token = "MOD" then some .mod
  else none

/-- Which operation an opcode selects (R109). The opcode alone decides; every other value selects nothing. -/
def mnemonicOfOpcode (a : Nat) : Option Mnemonic :=
  if a = Config.opcLoadConst then some .loadConst
  else if a = Config.opcReadMem then some .readMem
  else if a = Config.opcWriteMem then some .writeMem
  else if a = Config.opcMod then some .mod
  else none

/-! ### Bytes, words and fields -/

/-- The word of five bytes read as an unsigned little-endian integer: `b4 ++ b3 ++ b2 ++ b1 ++ b0` (R32, R96). -/
def wordOfBytes (x : WordBytes) : Word := x.b4 ++ x.b3 ++ x.b2 ++ x.b1 ++ x.b0

/-- The five bytes of a word, the least significant first: byte `k` is `w[8k+7:8k]` (R6, R32, R68). -/
def bytesOfWord (w : Word) : WordBytes where
  b0 := w.extractLsb' 0 8
  b1 := w.extractLsb' 8 8
  b2 := w.extractLsb' 16 8
  b3 := w.extractLsb' 24 8
  b4 := w.extractLsb' 32 8

/-- The five bytes in stream order. -/
def listOfBytes (x : WordBytes) : List Byte := [x.b0, x.b1, x.b2, x.b3, x.b4]

/-- The first five bytes of a byte list as a word's bytes, where there are five (R31). -/
def firstWord : List Byte → Option WordBytes
  | b0 :: b1 :: b2 :: b3 :: b4 :: _ => some ⟨b0, b1, b2, b3, b4⟩
  | _ => none

/-- The slice `w[lo+width-1 : lo]`, read as an unsigned number (R6). -/
def bitField (w : Word) (lo width : Nat) : Nat := (w.extractLsb' lo width).toNat

/-! ### DEC -/

/-- The four outputs of DEC (R95). `known` is the spec's addition; nothing in the machine acts on it (R99). -/
structure Decoded where
  A : Nat
  B : Nat
  C : Nat
  known : Bool
deriving DecidableEq, Repr

/-- The opcode field `w[6:0]` (R97). -/
def opcodeField (w : Word) : Nat := bitField w 0 Config.opcWidth

/-- OperandB, `w[13:7]` (R100). -/
def operandBField (w : Word) : Nat := bitField w Config.opcWidth Config.bWidth

/-- OperandC, `w[27:14]`, 14 bits whatever the opcode (R98). Bits 39 to 28 reach no output (R103). -/
def operandCField (w : Word) : Nat := bitField w (Config.opcWidth + Config.bWidth) Config.cDecWidth

/-- DEC: total on all 2^40 inputs, without state (R95, R102). -/
def decode (x : WordBytes) : Decoded :=
  let w := wordOfBytes x
  { A := opcodeField w
    B := operandBField w
    C := operandCField w
    known := (mnemonicOfOpcode (opcodeField w)).isSome }

/-- Why a byte sequence is no instruction. Neither is an error of the machine: the executor stops silently at the first
(R106) and logs and skips the second (R117). -/
inductive DecodeReject where
  /-- Fewer than five bytes; how many there are. -/
  | shortWord (available : Nat)
  /-- The opcode is none of 4, 18, 44 and 121. -/
  | unrecognisedOpcode (opcode : Nat)
deriving DecidableEq, Repr

/-- The instruction DEC's outputs for a word's bytes name: the opcode selects the operation, the two operand fields go
with it as they are (R49, R109). -/
def decodeInstr (x : WordBytes) : Except DecodeReject Instr :=
  let d := decode x
  match mnemonicOfOpcode d.A with
  | some m => .ok (Instr.ofMnemonic m d.B d.C)
  | none => .error (.unrecognisedOpcode d.A)

/-- The instruction of a 40-bit word. -/
def decodeWord (w : Word) : Except DecodeReject Instr := decodeInstr (bytesOfWord w)

/-- The decoder on any bytes: the first five make the word, whatever they hold (R58). -/
def decodeBytes (bytes : List Byte) : Except DecodeReject Instr :=
  match firstWord bytes with
  | some x => decodeInstr x
  | none => .error (.shortWord bytes.length)

/-! ### The encoder of well-formed instructions, and what ENC can write -/

/-- The word of an instruction in format D, its ignored bits zero: `OPC(m) + 2^7 * b + 2^14 * c` (R47, R52). On an
instruction that ENC accepts it is ENC's word (R88); on the others ENC gives no word and this is the model's own choice
of one word among those that decode to it (assumption log 18). -/
def encode (i : Instr) : Word :=
  BitVec.ofNat Config.wordBits
    (opc i.mnemonic + 2 ^ Config.opcWidth * i.opB + 2 ^ (Config.opcWidth + Config.bWidth) * i.opC)

/-- An instruction ENC can write: `b` fits 7 bits and `c` fits the mnemonic's own width (R52). -/
def Instr.canonical (i : Instr) : Bool :=
  decide (i.opB < 2 ^ Config.bWidth) && decide (i.opC < 2 ^ encWidthC i.mnemonic)

/-- The MASK of every row of spec/opcode_table.json: the opcode field (R62). -/
def tableMask : Word := 0x000000007F#40

/-- The MATCH of each row of spec/opcode_table.json: the opcode value (R62). -/
def tableMatch : Mnemonic → Word
  | .loadConst => 0x0000000079#40
  | .readMem => 0x0000000012#40
  | .writeMem => 0x000000002C#40
  | .mod => 0x0000000004#40

/-- What the decoder reads from an instruction whose bits are `w`, numbered as spec/opcode_table.json numbers them. Bits
at or above `nbits` are zero; the word's bytes are laid out in stream order and given to the decoder. -/
def decodeTableWord (nbits w : Nat) : Option Instr :=
  match decodeBytes (listOfBytes (bytesOfWord (BitVec.ofNat Config.wordBits (w % 2 ^ nbits)))) with
  | .ok i => some i
  | .error _ => none

end Sys2Proof
end

