-- ==== Sys2Proof/Machine/State.lean ====
section
/-! DEFINITION. State: everything the spec gives the machine, as plain data, and the state at reset.

The first ten fields are the closed list of spec/10_state.md rule R10. The last four are the inputs of a run (R11) and
the mark of the unit whose run is in progress: the spec calls the former inputs and not state, and the model holds them
in the state because its step is a function of the state alone (assumption log 1 and 2). -/

namespace Sys2Proof.Machine

/-- Why an execution run faulted: the `f` of FAULTED(f) (R18, R130). It is recorded in `exuStatus`; the machine takes it
as a next state (R119), so no step answers `Host.Outcome.fault` (assumption log 4). -/
inductive Fault where
  /-- Raised by each of the four instructions at the first cell address `a >= 50` it uses (R36, R110, R136). Safe: the
  spec chose a fault where its source is silent, and a faulted run has no result (D7). -/
  | addressFault (a : Nat)
deriving DecidableEq, Repr

/-- What the model gives no meaning, by name. -/
inductive Refusal where
  /-- Raised by an arm of `exec` that has no meaning yet. No arm of this model raises it. Safe. -/
  | notModelled (mnemonic : String)
  /-- Raised by the encoder's turn at a source line that is not a token and exactly two non-negative decimal integers
  (R75, D13): such a line never reaches ENC. Safe. -/
  | malformedLine (text : String)
  /-- Raised by PACK on a field list of total width above 40 (R69, D10). Safe. -/
  | fieldListTooWide (totalWidth : Nat)
  /-- Raised when a result is asked of an execution run that has not halted (R105, R119). Safe. -/
  | noResult
  /-- Raised when a result is asked for a report range not within `0 <= start <= end <= 50` (R120, D16). Safe. -/
  | reportRangeOutside (start stop : Nat)
  /-- Raised when the stream of an encoding run that committed nothing is asked for (R43). Safe. -/
  | noCommittedStream
deriving DecidableEq, Repr

/-- The conditions that fail an encoding run (R130). Neither has a number; FieldOverflowError has no payload (R132). -/
inductive EncError where
  /-- UnknownCommandError, carrying the raw mnemonic text (R131). -/
  | unknownCommand (token : String)
  /-- FieldOverflowError (R132). -/
  | fieldOverflow
deriving DecidableEq, Repr

/-- `enc_status` (R18). -/
inductive EncStatus where
  | running
  | failed (e : EncError)
  | committed
deriving DecidableEq, Repr

/-- `exu_status` (R18). -/
inductive ExuStatus where
  | running
  | halted
  | faulted (f : Fault)
deriving DecidableEq, Repr

/-- A trace event: one per executed instruction of a defined opcode (R21). -/
inductive TraceEvent where
  /-- `LoadConst(B, C)` (R112). -/
  | loadConst (b c : Nat)
  /-- `ReadMem(B, C, src, val)`: `src` is the source address `Mem[C]` (R113). -/
  | readMem (b c src val : Nat)
  /-- `WriteMem(B, C, val)`: cell B received `val` from cell C (R114). -/
  | writeMem (b c val : Nat)
  /-- `Mod(B, C, old, div, res)` (R115). -/
  | mod (b c old div res : Nat)
  /-- `ModDivZero(B, C)`: the division-by-zero marker (R116). -/
  | modDivZero (b c : Nat)
deriving DecidableEq, Repr

/-- A decode-log record `{bytes, A, B, C}` (R22). -/
structure DecodeRecord where
  bytes : WordBytes
  A : Nat
  B : Nat
  C : Nat
deriving DecidableEq, Repr

/-- An assembly-log record `{A, command, B, C, bytes}` (R19). -/
structure AssemblyRecord where
  A : Nat
  command : String
  B : Nat
  C : Nat
  bytes : WordBytes
deriving DecidableEq, Repr

/-- One line of the textual program as the front end hands it over. -/
inductive SourceLine where
  /-- A mnemonic token and exactly two natural numbers: `enc_line(m, b, c)` (R75). -/
  | instr (token : String) (b c : Nat)
  /-- A line of any other shape, as its raw text; the model refuses it (R75, D13). -/
  | malformed (text : String)
deriving DecidableEq, Repr

/-- The unit whose run is in progress; the two never run at the same time (R40, R138; assumption log 2). -/
inductive RunUnit where
  | enc
  | exu
deriving DecidableEq, Repr

/-- The data memory: (cell address, content) pairs in one canonical form (`Memory.wf`, Ops.lean): addresses strictly
rising and below MEM_SIZE, no listed content equal to what an unlisted cell reads as. A cell is one natural number and
has no bytes (R15, R16, R33), so a pair holds a number where memories of bytes hold a byte. -/
abbrev Memory := List (Nat × Nat)

/-- The state of the hardware. -/
structure State where
  /-- Program counter of EXU: byte offset in the stream of the next word to fetch (R13). -/
  pc : Nat
  /-- The 50 memory cells (R15). -/
  mem : Memory
  /-- Execution trace, oldest event first (R21). -/
  trace : List TraceEvent
  /-- Decode log, oldest record first (R22). -/
  dlog : List DecodeRecord
  /-- Status of the execution run (R18). -/
  exuStatus : ExuStatus
  /-- Words produced so far in the encoding run, in line order; pending (R19). -/
  encWords : List Word
  /-- Assembly log so far, one record per word; pending (R19). -/
  encLog : List AssemblyRecord
  /-- Status of the encoding run (R18). -/
  encStatus : EncStatus
  /-- Committed byte stream of an encoding run; absent until the commit (R20). -/
  binOut : Option (List Byte)
  /-- Committed assembly log; absent until the commit (R20). -/
  logOut : Option (List AssemblyRecord)
  /-- Input of an execution run: the instruction stream S, L its length (R11, R30). No rule changes it. -/
  stream : List Byte
  /-- Input of an execution run: the report range (start, end) (R11). No rule changes it. -/
  reportRange : Nat × Nat
  /-- Input of an encoding run: the lines of the program text that ENC has not consumed yet (R11). -/
  sourceText : List SourceLine
  /-- The unit whose turn the next step is. The model's own field (assumption log 2). -/
  activeUnit : RunUnit
deriving DecidableEq, Repr

/-- The state at reset (R25, R150). No item of R10 is unspecified at reset. The inputs are empty and the active unit is
EXU by the model's own choice (assumption log 3). -/
def State.reset : State where
  pc := 0
  mem := []
  trace := []
  dlog := []
  exuStatus := .running
  encWords := []
  encLog := []
  encStatus := .running
  binOut := none
  logOut := none
  stream := []
  reportRange := (0, 0)
  sourceText := []
  activeUnit := .exu

/-- What a meaning and a step answer. -/
abbrev Answer := Host.Outcome State Fault Refusal

end Sys2Proof.Machine
end

