-- ==== Sys2Proof/Machine/Ops.lean ====
section
/-! DEFINITION. Ops: the named operations over memory and the state. Every meaning and every turn of a unit is written
with these. There is no operation that returns from a condition: the hardware has none (R140). -/

namespace Sys2Proof.Machine

/-! ### Memory: one cell at a time (R35, R37) -/

/-- Content of the cell at address `a`: the listed one, or the reset value (R15, R25). -/
def Memory.read : Memory → Nat → Nat
  | [], _ => Config.cellAtReset
  | (x, u) :: m, a => if a = x then u else Memory.read m a

/-- Write one whole cell. Writing the reset value removes the cell's entry, so that equal memories are equal lists. -/
def Memory.write : Memory → Nat → Nat → Memory
  | [], a, v => if v = Config.cellAtReset then [] else [(a, v)]
  | (x, u) :: m, a, v =>
    if a < x then
      if v = Config.cellAtReset then (x, u) :: m else (a, v) :: (x, u) :: m
    else if a = x then
      if v = Config.cellAtReset then m else (a, v) :: m
    else (x, u) :: Memory.write m a v

/-- The canonical form from address `low` up: addresses at or above `low`, strictly rising, below MEM_SIZE, and no entry
equal to what an unlisted cell reads as. -/
def Memory.wfFrom : Nat → Memory → Bool
  | _, [] => true
  | low, (x, u) :: m =>
    decide (low ≤ x) && decide (x < Config.memSize) && decide (u ≠ Config.cellAtReset) && Memory.wfFrom (x + 1) m

/-- The canonical form of the data memory (R15: "addressed 0..49"). -/
def Memory.wf (m : Memory) : Bool := Memory.wfFrom 0 m

/-! ### Updates of the executor's items -/

/-- `Mem[a] <- v`. -/
def State.writeCell (s : State) (a v : Nat) : State := { s with mem := s.mem.write a v }

/-- `append(trace, e)`. -/
def State.appendTrace (s : State) (e : TraceEvent) : State := { s with trace := s.trace ++ [e] }

/-- `append(dlog, r)`. -/
def State.appendDlog (s : State) (r : DecodeRecord) : State := { s with dlog := s.dlog ++ [r] }

/-- `pc <- pc + PC_STEP` (R107). The only operation that writes `pc` during a run (R13). -/
def State.advancePc (s : State) : State := { s with pc := s.pc + Config.pcStep }

/-- `exu_status <- HALTED` (R106). -/
def State.halt (s : State) : State := { s with exuStatus := .halted }

/-- Taking a fatal condition of the executor (R119, R139): the status records it, nothing else changes. No handler, no
vector, no saved program counter and no change of mode exist; `pc` keeps the value the fetch gave it. -/
def State.takeFault (s : State) (f : Fault) : State := { s with exuStatus := .faulted f }

/-- The address check that stands before every use of a cell (R9, R36, R110): an address at or above MEM_SIZE raises
AddressFault, otherwise the operation goes on. -/
def requireCell (a : Nat) (s : State) (goOn : Answer) : Answer :=
  if a < Config.memSize then goOn else .next (s.takeFault (.addressFault a))

/-- The decode-log record of a fetched word: the raw bytes, ignored bits included, and DEC's three outputs (R118). -/
def decodeRecord (x : WordBytes) : DecodeRecord where
  bytes := x
  A := (decode x).A
  B := (decode x).B
  C := (decode x).C

/-- The text that a trace event stands for, where the spec gives one: LOAD_CONST's only (R112; R4 (c), D14). -/
def TraceEvent.text : TraceEvent → Option String
  | .loadConst b c => some ("LOAD_CONST: R" ++ toString b ++ " <- " ++ toString c)
  | .readMem _ _ _ _ => none
  | .writeMem _ _ _ => none
  | .mod _ _ _ _ _ => none
  | .modDivZero _ _ => none

/-! ### Updates of the encoder's items -/

/-- The word and the record of a successful line join the pending sequences (R84). -/
def State.appendEncoded (s : State) (w : Word) (r : AssemblyRecord) : State :=
  { s with encWords := s.encWords ++ [w], encLog := s.encLog ++ [r] }

/-- Taking a fatal condition of the encoder (R83): the status records it and the pending sequences are discarded. The
committed outputs are untouched: they are absent while the run is RUNNING, and stay so. -/
def State.failEncoding (s : State) (e : EncError) : State :=
  { s with encStatus := .failed e, encWords := [], encLog := [] }

/-- The commit (R86): both outputs and the status in one step. -/
def State.commitEncoding (s : State) : State :=
  { s with
    binOut := some (s.encWords.flatMap fun w => listOfBytes (bytesOfWord w))
    logOut := some s.encLog
    encStatus := .committed }

/-- The front end hands over one line: what is left of the text. -/
def State.setSourceText (s : State) (ls : List SourceLine) : State := { s with sourceText := ls }

end Sys2Proof.Machine
end

