-- ==== Sys2Proof/Machine/Operands.lean ====
section
/-! DEFINITION. Operands: the three ways an operand is used (spec/43_executor.md rule R123). The effective address is the
field value itself, or the cell content itself: no base, index, scaling or offset, and no modification afterwards. A
form that names a cell checks its address before the operation goes on (R110). -/

namespace Sys2Proof.Machine

/-- Immediate: OperandC of LOAD_CONST is the value itself, never checked as an address (R136). -/
def immediate (c : Nat) : Nat := c

/-- Direct: the operand is the address of the cell. -/
def directCell (a : Nat) (s : State) (goOn : Nat → Answer) : Answer :=
  requireCell a s (goOn a)

/-- Indirect: the operand is the address of a cell whose content is the address of the source cell; the operand is
checked first and then the content (R113). -/
def indirectCell (a : Nat) (s : State) (goOn : Nat → Answer) : Answer :=
  requireCell a s (requireCell (s.mem.read a) s (goOn (s.mem.read a)))

end Sys2Proof.Machine
end

