-- ==== Sys2Proof/Machine/Flags.lean ====
section
/-! DEFINITION. Flags: the hardware has no status flag, no condition code and no predicate (spec/10_state.md rule R17), so
no state stands here. What other machines would report in a flag this one reports by a condition or a trace event; the
two tests behind them are here. -/

namespace Sys2Proof.Machine

/-- The overflow test of one field: `value >= 2^width` (R66). Reported only by FieldOverflowError (R17). -/
def fieldOverflows (value width : Nat) : Bool := decide (2 ^ width ≤ value)

/-- The division-by-zero test of MOD (R115, R116). Reported only by a trace event (R17). -/
def divisorIsZero (div : Nat) : Bool := decide (div = 0)

end Sys2Proof.Machine
end

