-- ==== Sys2Proof/Machine/Pack.lean ====
section
/-! DEFINITION. Pack: the field packer PACK (spec/40_field_packer.md), a pure function without state (R65, R23). -/

namespace Sys2Proof.Machine

/-- One field of a field list: a value and a width in bits (R65). -/
structure PackField where
  value : Nat
  width : Nat
deriving DecidableEq, Repr

/-- What PACK answers. -/
inductive Packed where
  /-- The 40-bit word; its bytes are `bytesOfWord` (R68). -/
  | word (w : Word)
  /-- FieldOverflowError, and no output (R66). It says neither which field nor which value (R132). -/
  | fieldOverflow
  /-- The list is outside PACK's domain and the model gives it no meaning (R69). -/
  | refused (r : Refusal)
deriving DecidableEq, Repr

/-- The total width `n_0 + ... + n_(k-1)`. -/
def totalWidth (fields : List PackField) : Nat := (fields.map (·.width)).sum

/-- The accumulation: from the last field to the first, shift left by the width and OR the value in, so that the first
field ends up in the least significant bits (R67). -/
def accumulate : List PackField → Nat
  | [] => 0
  | f :: rest => (accumulate rest <<< f.width) ||| f.value

/-- Whether some field's value does not fit its width (R66). -/
def anyOverflow (fields : List PackField) : Bool := fields.any fun f => fieldOverflows f.value f.width

/-- `pack` (R65 to R69). The domain test comes first (assumption log 11), then the overflow test over every field, then the
word; the serialisation is the net effect that R68 makes normative, not the two-step transform (U5). -/
def pack (fields : List PackField) : Packed :=
  if Config.wordBits < totalWidth fields then .refused (.fieldListTooWide (totalWidth fields))
  else if anyOverflow fields then .fieldOverflow
  else .word (BitVec.ofNat Config.wordBits (accumulate fields))

end Sys2Proof.Machine
end

