-- ==== Sys2Proof/Machine/Encoder.lean ====
section
/-! DEFINITION. Encoder: ENC (spec/41_encoder.md), its pure function `encode_word` and its transactions `enc_line` and
`enc_end`. `enc_reset` is in Machine/Runs.lean with the other acts of the host. -/

namespace Sys2Proof.Machine

/-- What `encode_word` answers (R88). -/
inductive Encoded where
  /-- The word, and the row of the table that the token named. -/
  | word (m : Mnemonic) (w : Word)
  | failed (e : EncError)
  /-- PACK refused the field list. No list ENC makes is refused (R69); the case is carried, not hidden. -/
  | refused (r : Refusal)
deriving DecidableEq, Repr

/-- The field list of a line, "in the order [opcode,7][operandB,7][operandC, W]" (R48, R88). -/
def fieldList (m : Mnemonic) (b c : Nat) : List PackField :=
  [⟨opc m, Config.opcWidth⟩, ⟨b, Config.bWidth⟩, ⟨c, encWidthC m⟩]

/-- `encode_word(m, b, c)` (R88): first the mnemonic (R82), then the fields (R81, R85). -/
def encodeWord (token : String) (b c : Nat) : Encoded :=
  match mnemonicOfText token with
  | none => .failed (.unknownCommand token)
  | some m =>
    match pack (fieldList m b c) with
    | .word w => .word m w
    | .fieldOverflow => .failed .fieldOverflow
    | .refused r => .refused r

/-- The assembly-log record of a successful line (R84). -/
def assemblyRecord (m : Mnemonic) (token : String) (b c : Nat) (w : Word) : AssemblyRecord where
  A := opc m
  command := token
  B := b
  C := c
  bytes := bytesOfWord w

/-- `enc_line(m, b, c)` (R75): it acts only while `enc_status` is RUNNING (R76). -/
def encLine (token : String) (b c : Nat) (s : State) : Answer :=
  match s.encStatus with
  | .failed _ => .next s
  | .committed => .next s
  | .running =>
    match encodeWord token b c with
    | .word m w => .next (s.appendEncoded w (assemblyRecord m token b c w))
    | .failed e => .next (s.failEncoding e)
    | .refused r => .refused r

/-- `enc_end` (R75, R86): it acts only while `enc_status` is RUNNING (R76). -/
def encEnd (s : State) : Answer :=
  match s.encStatus with
  | .failed _ => .next s
  | .committed => .next s
  | .running => .next s.commitEncoding

/-- One turn of an encoding run: the next line of the text, or the end of the text. After a failure or a commit the rest of
the text is not examined (R76). A line the front end could not read never reaches ENC and is refused (R75). -/
def encStep (s : State) : Answer :=
  match s.encStatus with
  | .failed _ => .next s
  | .committed => .next s
  | .running =>
    match s.sourceText with
    | [] => encEnd s
    | .instr token b c :: rest => encLine token b c (s.setSourceText rest)
    | .malformed text :: _ => .refused (.malformedLine text)

end Sys2Proof.Machine
end

