-- ==== Sys2Proof/Machine/Arith.lean ====
section
/-! DEFINITION. Arith: the meaning of MOD, the one arithmetic instruction (spec/43_executor.md rules R115, R116, R122). -/

namespace Sys2Proof.Machine

/-- MOD, opcode 4. With a non-zero divisor the remainder of non-negative integers replaces the dividend (R115); with a
zero divisor no cell is written and the division-by-zero marker is traced (R116). The checks are made in the order `C`,
then `B`, before the divisor is looked at (R110). -/
def execMod (b c : Nat) (s : State) : Answer :=
  directCell c s fun src =>
    directCell b s fun dst =>
      let div := s.mem.read src
      let old := s.mem.read dst
      if divisorIsZero div then
        .next (s.appendTrace (.modDivZero b c))
      else
        .next ((s.writeCell dst (old % div)).appendTrace (.mod b c old div (old % div)))

end Sys2Proof.Machine
end

