-- ==== Sys2Proof/Machine/Transfer.lean ====
section
/-! DEFINITION. Transfer: the meanings of LOAD_CONST, READ_MEM and WRITE_MEM (spec/43_executor.md rules R112 to R114).

Every read sees the memory as the instruction found it, and the one write is the last effect on memory (R111). -/

namespace Sys2Proof.Machine

/-- LOAD_CONST, opcode 121 (R112): `if B >= 50 then raise AddressFault(B); MemWrite(B, 1, C); append(trace, LoadConst(B, C))`. -/
def execLoadConst (b c : Nat) (s : State) : Answer :=
  directCell b s fun dst =>
    .next ((s.writeCell dst (immediate c)).appendTrace (.loadConst b c))

/-- READ_MEM, opcode 18 (R113): the checks are made in the order `C`, then the pointer `Mem[C]`, then `B`. -/
def execReadMem (b c : Nat) (s : State) : Answer :=
  indirectCell c s fun src =>
    directCell b s fun dst =>
      let val := s.mem.read src
      .next ((s.writeCell dst val).appendTrace (.readMem b c src val))

/-- WRITE_MEM, opcode 44 (R114): cell `B` receives cell `C`, in spite of the mnemonic (90_conflicts.md C5); the checks
are made in the order `C`, then `B`. -/
def execWriteMem (b c : Nat) (s : State) : Answer :=
  directCell c s fun src =>
    directCell b s fun dst =>
      let val := s.mem.read src
      .next ((s.writeCell dst val).appendTrace (.writeMem b c val))

end Sys2Proof.Machine
end

