-- ==== Sys2Proof/Machine/Dispatch.lean ====
section
/-! DEFINITION. Dispatch: one arm per constructor of Instr, one direct call of its meaning (R109). A word whose opcode
selects no operation is no instruction and does not come here (R117; Machine/Loop.lean). -/

namespace Sys2Proof.Machine

def exec (i : Instr) (s : State) : Host.Outcome State Fault Refusal :=
  match i with
  | .loadConst b c => Sys2Proof.Machine.execLoadConst b c s
  | .readMem b c => Sys2Proof.Machine.execReadMem b c s
  | .writeMem b c => Sys2Proof.Machine.execWriteMem b c s
  | .mod b c => Sys2Proof.Machine.execMod b c s

end Sys2Proof.Machine
end

