-- ==== Sys2Proof/Machine/Loop.lean ====
section
/-! DEFINITION. Loop: the executor's loop, one turn of it (spec/43_executor.md rules R105 to R109, R117 to R119): the stop
test, the fetch, the decode, the dispatch and the operation, the decode-log append. -/

namespace Sys2Proof.Machine

/-- `Fetch(pc)`: the five bytes of the stream at offset `pc`, where five remain (R31); nothing where fewer do. -/
def fetch (stream : List Byte) (pc : Nat) : Option WordBytes := firstWord (stream.drop pc)

/-- Step 5 of the loop after the operation of step 4: the record is appended whatever the dispatch did, but a raised
fault does not reach it (R118, R119). -/
def logAfter (x : WordBytes) : Answer → Answer
  | .next t =>
    match t.exuStatus with
    | .faulted _ => .next t
    | .running => .next (t.appendDlog (decodeRecord x))
    | .halted => .next (t.appendDlog (decodeRecord x))
  | .fault r => .fault r
  | .refused r => .refused r

/-- Steps 3 to 5 for a fetched word, in the state whose `pc` has already advanced (R107). An unrecognised opcode reads and
writes no cell, checks no address and traces nothing; its word is logged and skipped (R117). -/
def runWord (x : WordBytes) (s : State) : Answer :=
  match decodeInstr x with
  | .ok i => logAfter x (exec i s)
  | .error _ => .next (s.appendDlog (decodeRecord x))

/-- `exu_step` (R105): it acts only while `exu_status` is RUNNING; HALTED and FAULTED are terminal and nothing changes in
them (R18, R140). With fewer than five bytes left at `pc` it halts and does nothing else (R106). -/
def exuStep (s : State) : Answer :=
  match s.exuStatus with
  | .halted => .next s
  | .faulted _ => .next s
  | .running =>
    match fetch s.stream s.pc with
    | none => .next s.halt
    | some x => runWord x s.advancePc

end Sys2Proof.Machine
end

