-- ==== Sys2Proof/Machine/Runs.lean ====
section
/-! DEFINITION. Runs: what the host does before a run and what it gets after it (spec/70_reset_and_hazards.md rules R150,
R153, R158). These are acts of the host between runs, not steps of the machine: during a run the host can do nothing
(R137), so `step` has no such transition (assumption log 6). -/

namespace Sys2Proof.Machine

/-- `enc_reset` with the text of the program: ENC is put in its reset state (R25, R75, R150) and its run begins. The
executor's items are left alone: runs share nothing (R26). -/
def State.encReset (s : State) (text : List SourceLine) : State :=
  { s with
    encWords := []
    encLog := []
    encStatus := .running
    binOut := none
    logOut := none
    sourceText := text
    activeUnit := .enc }

/-- `exu_reset(S, start, end)`: EXU is put in its reset state (R25, R105, R150) with its inputs, and its run begins. The
encoder's items are left alone. -/
def State.exuReset (s : State) (stream : List Byte) (start stop : Nat) : State :=
  { s with
    pc := 0
    mem := []
    trace := []
    dlog := []
    exuStatus := .running
    stream := stream
    reportRange := (start, stop)
    activeUnit := .exu }

/-- The hand-off (R26, R43): an execution run over the committed stream of the encoding run. A run that committed nothing
hands over nothing. -/
def State.handOver (s : State) (start stop : Nat) : Except Refusal State :=
  match s.binOut with
  | some stream => .ok (s.exuReset stream start stop)
  | none => .error .noCommittedStream

/-- What an execution run gives the host (R120). -/
structure RunResult where
  memory : List Nat
  log : List DecodeRecord
  executionSteps : List TraceEvent
deriving DecidableEq, Repr

/-- The memory slice `[Mem[start], ..., Mem[end-1]]` (R120). -/
def memorySlice (m : Memory) (start stop : Nat) : List Nat :=
  (List.range (stop - start)).map fun k => m.read (start + k)

/-- `exu_result` (R105, R120): defined only when `exu_status` is HALTED, for a report range within
`0 <= start <= end <= 50`; the model refuses anything else. -/
def State.exuResult (s : State) : Except Refusal RunResult :=
  match s.exuStatus with
  | .running => .error .noResult
  | .faulted _ => .error .noResult
  | .halted =>
    if s.reportRange.1 ≤ s.reportRange.2 ∧ s.reportRange.2 ≤ Config.memSize then
      .ok { memory := memorySlice s.mem s.reportRange.1 s.reportRange.2, log := s.dlog, executionSteps := s.trace }
    else .error (.reportRangeOutside s.reportRange.1 s.reportRange.2)

/-- What an encoding run gives the host: both outputs after a commit, neither before it or after a failure (R158). -/
def State.encResult (s : State) : Option (List Byte × List AssemblyRecord) :=
  match s.binOut, s.logOut with
  | some bytes, some log => some (bytes, log)
  | _, _ => none

/-- A word put in the stream where the next fetch reads it, with the executor's run in progress. Stream bytes that are not
there before `pc` are filled with zeros; no reachable state has any such gap (R14). -/
def State.placeWord (s : State) (w : Word) : State :=
  { s with
    stream := (s.stream ++ List.replicate (s.pc - s.stream.length) 0).take s.pc
      ++ listOfBytes (bytesOfWord w) ++ s.stream.drop (s.pc + Config.wordBytes)
    exuStatus := .running
    activeUnit := .exu }

end Sys2Proof.Machine
end

