-- ==== Sys2Proof/Machine/Step.lean ====
section
/-! DEFINITION. Step: one transaction of the unit whose run is in progress (spec/92_eei_decisions.md D1): one source line or
the end of the text for ENC, one fetched word for EXU. -/

namespace Sys2Proof.Machine

/-- One step of the machine. -/
def step (s : State) : Host.Outcome State Fault Refusal :=
  match s.activeUnit with
  | .enc => encStep s
  | .exu => exuStep s

/-- `s` with the instruction whose bits are `w`, numbered as spec/opcode_table.json numbers them (bits at or above `nbits`
zero), in the stream at `pc`, so that the next step runs it (assumption log 3 and 17). -/
def State.withFetchWord (s : State) (nbits w : Nat) : State :=
  s.placeWord (BitVec.ofNat Config.wordBits (w % 2 ^ nbits))

end Sys2Proof.Machine
end

