-- ==== Sys2Proof/Safety.lean ====
section
/-! DEFINITION. Safety: what counts as a safe run and as the end of one, in the terms the claims use.

An execution run has ended when it is HALTED; FAULTED is not an end of which anything may be claimed (R119, R159). An
encoding run has ended when it is COMMITTED or FAILED (R159). The one thing a program must respect is that every cell
address an instruction uses is below 50 (R155). -/

namespace Sys2Proof.Machine

/-- The cell addresses an instruction uses, in the order it checks them (R110, R112 to R116). OperandC of LOAD_CONST is a
constant and is no address (R136). -/
def usedAddresses : Instr → State → List Nat
  | .loadConst b _, _ => [b]
  | .readMem b c, s => [c, s.mem.read c, b]
  | .writeMem b c, _ => [c, b]
  | .mod b c, _ => [c, b]

/-- Every cell address the instruction uses names a cell (R155). -/
abbrev AddressesInRange (i : Instr) (s : State) : Prop := ∀ a ∈ usedAddresses i s, a < Config.memSize

/-- The first address an instruction uses that names no cell: the one AddressFault reports (R110, R136). -/
def firstOffending (i : Instr) (s : State) : Option Nat :=
  (usedAddresses i s).find? fun a => decide (Config.memSize ≤ a)

/-- The one cell an instruction may write: its OperandB (R37, R123: "the destination is always direct"). -/
def destination (i : Instr) : Nat := i.opB

/-- The execution run has ended (R159). -/
abbrev ExecutionEnded (s : State) : Prop := s.exuStatus = .halted

/-- The execution run has faulted: terminal, and no end (R119). -/
def isFaulted : ExuStatus → Bool
  | .running => false
  | .halted => false
  | .faulted _ => true

/-- The encoding run has ended, one way or the other (R159). -/
abbrev EncodingEnded (s : State) : Prop := s.encStatus ≠ .running

/-! ### What an event of the trace and a record of the decode log say -/

/-- The instruction a trace event records (R21). A division by zero is recorded by the marker of MOD (R116). -/
def TraceEvent.instr : TraceEvent → Instr
  | .loadConst b c => .loadConst b c
  | .readMem b c _ _ => .readMem b c
  | .writeMem b c _ => .writeMem b c
  | .mod b c _ _ _ => .mod b c
  | .modDivZero b c => .mod b c

/-- The cell a traced instruction wrote and the value it wrote, where it wrote one (R112 to R116). -/
def TraceEvent.written : TraceEvent → Option (Nat × Nat)
  | .loadConst b c => some (b, c)
  | .readMem b _ _ val => some (b, val)
  | .writeMem b _ val => some (b, val)
  | .mod b _ _ _ res => some (b, res)
  | .modDivZero _ _ => none

/-- The value of the latest write to cell `a` in a trace, or `found` where there is none. -/
def latestWrite (a : Nat) : List TraceEvent → Nat → Nat
  | [], found => found
  | e :: rest, found =>
    match e.written with
    | some (b, v) => latestWrite a rest (if a = b then v else found)
    | none => latestWrite a rest found

/-- The instruction a decode-log record names, where its opcode is defined (R109). -/
def DecodeRecord.instr (r : DecodeRecord) : Option Instr :=
  (mnemonicOfOpcode r.A).map fun m => Instr.ofMnemonic m r.B r.C

/-- The instructions of a program done one after the other, up to the first fault: what a stream of them means, without
the stream (R40: each instruction is done completely before the next). -/
def execInOrder : List Instr → State → State
  | [], s => s
  | i :: rest, s =>
    match exec i s with
    | .next t => if isFaulted t.exuStatus then t else execInOrder rest t
    | .fault _ => s
    | .refused _ => s

/-- The source line of an instruction: its mnemonic and its two operands (R59). -/
def sourceLine (i : Instr) : SourceLine := .instr i.mnemonic.text i.opB i.opC

/-! ### Invariants of a run -/

/-- The program counter stands on a word boundary inside the stream, and a halted run has read every whole word (R14). -/
def PcInv (s : State) : Prop :=
  s.pc % 5 = 0 ∧ s.pc ≤ s.stream.length ∧ (s.exuStatus = .halted → s.stream.length - s.pc < 5)

/-- Every cell of the canonical memory holds a value of CELL_W bits (R16). -/
def CellsInv (s : State) : Prop := s.mem.wf = true ∧ ∀ a, s.mem.read a ≤ 16383

/-- One decode-log record per fetched word, in fetch order: record `k` holds the five bytes of the word at offset `5 * k`
and the three fields of format D; a faulting word has advanced `pc` and has no record (R22, R118, R119). -/
def DecodeLogInv (s : State) : Prop :=
  s.pc = 5 * (s.dlog.length + if isFaulted s.exuStatus then 1 else 0) ∧
  ∀ k r, s.dlog[k]? = some r →
    fetch s.stream (5 * k) = some r.bytes ∧
    r.A = (wordOfBytes r.bytes).toNat % 128 ∧
    r.B = (wordOfBytes r.bytes).toNat / 128 % 128 ∧
    r.C = (wordOfBytes r.bytes).toNat / 16384 % 16384

/-- One trace event per logged word of a defined opcode, in order, for the instruction of that word (R21, R117). -/
def TraceInv (s : State) : Prop := s.trace.map TraceEvent.instr = s.dlog.filterMap DecodeRecord.instr

/-- The memory is canonical, and every cell holds the value of the latest traced write to it, or 0 (R40). -/
def MemoryInv (s : State) : Prop := s.mem.wf = true ∧ ∀ a, s.mem.read a = latestWrite a s.trace 0

/-- The pending words and records of an encoding run go together line by line and hold only words ENC can make, and the
outputs are absent unless the run is committed, when they are the pending sequences (R19, R20, R83, R86, R89). -/
def EncoderInv (s : State) : Prop :=
  s.encWords.length = s.encLog.length ∧
  (∀ (k : Nat) (w : Word), s.encWords[k]? = some w →
    ∃ i : Instr, i.canonical = true ∧ w.toNat = opc i.mnemonic + 128 * i.opB + 16384 * i.opC ∧
      s.encLog[k]? = some ⟨opc i.mnemonic, i.mnemonic.text, i.opB, i.opC, bytesOfWord w⟩) ∧
  match s.encStatus with
  | .running => s.binOut = none ∧ s.logOut = none
  | .failed _ => s.encWords = [] ∧ s.binOut = none ∧ s.logOut = none
  | .committed =>
    s.binOut = some (s.encWords.flatMap fun w => listOfBytes (bytesOfWord w)) ∧ s.logOut = some s.encLog

end Sys2Proof.Machine
end

