-- ==== Sys2Proof/Certificates/Slice0/Obligations.lean ====
section
/-! DEFINITION. Obligations: what the provers are asked to prove of this model. Each statement's docstring names the rules of
spec/ it formalises; numbers are written out as the rules have them, not by the model's names for them. -/

open Sys2Proof Sys2Proof.Machine

/-! ### The four instructions -/

/-- R112, LOAD_CONST. In range: cell `b` receives `c`, every other cell reads as before, one event is traced, and nothing
else changes. Out of range: AddressFault(b). The event stands for the one text the source gives.
That a fault is a next state with that status and nothing else changed is R119 with the spec's own decision D7, read as in the
assumption log 4 (DEDUCED). -/
def Obligations.LoadConstWritesItsConstant : Prop :=
  ∀ (b c : Nat) (s : State), s.mem.wf = true →
    (b < 50 → ∃ t, exec (.loadConst b c) s = .next t ∧
      t.mem.read b = c ∧ (∀ a, a ≠ b → t.mem.read a = s.mem.read a) ∧
      t.trace = s.trace ++ [.loadConst b c] ∧
      t = { s with mem := t.mem, trace := t.trace }) ∧
    (50 ≤ b → exec (.loadConst b c) s = .next { s with exuStatus := .faulted (.addressFault b) }) ∧
    (TraceEvent.loadConst b c).text = some ("LOAD_CONST: R" ++ toString b ++ " <- " ++ toString c)

/-- R113, READ_MEM. Checks in the order C, pointer, B; in range, cell `b` receives the cell that cell `c` points to.
That a fault is a next state with that status and nothing else changed is R119 with the spec's own decision D7, read as in the
assumption log 4 (DEDUCED). -/
def Obligations.ReadMemFollowsThePointer : Prop :=
  ∀ (b c : Nat) (s : State), s.mem.wf = true →
    (c < 50 → s.mem.read c < 50 → b < 50 → ∃ t, exec (.readMem b c) s = .next t ∧
      t.mem.read b = s.mem.read (s.mem.read c) ∧ (∀ a, a ≠ b → t.mem.read a = s.mem.read a) ∧
      t.trace = s.trace ++ [.readMem b c (s.mem.read c) (s.mem.read (s.mem.read c))] ∧
      t = { s with mem := t.mem, trace := t.trace }) ∧
    (50 ≤ c → exec (.readMem b c) s = .next { s with exuStatus := .faulted (.addressFault c) }) ∧
    (c < 50 → 50 ≤ s.mem.read c →
      exec (.readMem b c) s = .next { s with exuStatus := .faulted (.addressFault (s.mem.read c)) }) ∧
    (c < 50 → s.mem.read c < 50 → 50 ≤ b →
      exec (.readMem b c) s = .next { s with exuStatus := .faulted (.addressFault b) })

/-- R114, WRITE_MEM. Checks in the order C, B; in range, cell `b` receives cell `c` (and not the other way
round).
That a fault is a next state with that status and nothing else changed is R119 with the spec's own decision D7, read as in the
assumption log 4 (DEDUCED). -/
def Obligations.WriteMemCopiesFromCToB : Prop :=
  ∀ (b c : Nat) (s : State), s.mem.wf = true →
    (c < 50 → b < 50 → ∃ t, exec (.writeMem b c) s = .next t ∧
      t.mem.read b = s.mem.read c ∧ (∀ a, a ≠ b → t.mem.read a = s.mem.read a) ∧
      t.trace = s.trace ++ [.writeMem b c (s.mem.read c)] ∧
      t = { s with mem := t.mem, trace := t.trace }) ∧
    (50 ≤ c → exec (.writeMem b c) s = .next { s with exuStatus := .faulted (.addressFault c) }) ∧
    (c < 50 → 50 ≤ b → exec (.writeMem b c) s = .next { s with exuStatus := .faulted (.addressFault b) })

/-- R115, MOD with a non-zero divisor. Checks in the order C, B, whatever the divisor; the remainder replaces the dividend
and is below the divisor. That the source's operator is this remainder is general knowledge (R9, G1; assumption log 21).
That a fault is a next state with that status and nothing else changed is R119 with the spec's own decision D7, read as in the
assumption log 4 (DEDUCED). -/
def Obligations.ModWritesTheRemainder : Prop :=
  ∀ (b c : Nat) (s : State), s.mem.wf = true →
    (c < 50 → b < 50 → s.mem.read c ≠ 0 → ∃ t, exec (.mod b c) s = .next t ∧
      (∃ q, s.mem.read b = s.mem.read c * q + t.mem.read b) ∧ t.mem.read b < s.mem.read c ∧
      (∀ a, a ≠ b → t.mem.read a = s.mem.read a) ∧
      t.trace = s.trace ++ [.mod b c (s.mem.read b) (s.mem.read c) (t.mem.read b)] ∧
      t = { s with mem := t.mem, trace := t.trace }) ∧
    (50 ≤ c → exec (.mod b c) s = .next { s with exuStatus := .faulted (.addressFault c) }) ∧
    (c < 50 → 50 ≤ b → exec (.mod b c) s = .next { s with exuStatus := .faulted (.addressFault b) })

/-- R116, MOD with a zero divisor. The operands are checked first; then only the marker is traced and the run goes on.
That a fault is a next state with that status and nothing else changed is R119 with the spec's own decision D7, read as in the
assumption log 4 (DEDUCED). -/
def Obligations.ModByZeroOnlyTracesTheMarker : Prop :=
  ∀ (b c : Nat) (s : State), s.mem.read c = 0 →
    (c < 50 → b < 50 → exec (.mod b c) s = .next { s with trace := s.trace ++ [.modDivZero b c] }) ∧
    (50 ≤ c → exec (.mod b c) s = .next { s with exuStatus := .faulted (.addressFault c) }) ∧
    (c < 50 → 50 ≤ b → exec (.mod b c) s = .next { s with exuStatus := .faulted (.addressFault b) })

/-- R111. Where an address repeats, every read gives the old content: `MOD b b` leaves 0, and a READ_MEM whose pointer
names its own destination reads the old destination, so the memory does not change. The rule is the spec's own inference
(D21). -/
def Obligations.RepeatedAddressesReadOldContents : Prop :=
  ∀ (b c : Nat) (s : State), s.mem.wf = true → b < 50 → c < 50 →
    (s.mem.read b ≠ 0 → ∃ t, exec (.mod b b) s = .next t ∧ t.mem.read b = 0 ∧
      t.trace = s.trace ++ [.mod b b (s.mem.read b) (s.mem.read b) 0]) ∧
    (s.mem.read c = b → ∃ t, exec (.readMem b c) s = .next t ∧ t.mem = s.mem ∧
      t.trace = s.trace ++ [.readMem b c b (s.mem.read b)]) ∧
    (∃ t, exec (.writeMem b b) s = .next t ∧ t.mem = s.mem ∧
      t.trace = s.trace ++ [.writeMem b b (s.mem.read b)])

/-- R110 and R136. An instruction faults exactly when some address it uses is 50 or more, at the first such address in its
rule's order, and then it has changed no cell and traced nothing; otherwise it runs and traces one event. That such an access
faults is the spec's own decision D7; that the fault is a next state is the assumption log 4 (DEDUCED). -/
def Obligations.FirstOffendingAddressFaults : Prop :=
  ∀ (i : Instr) (s : State),
    (∀ a, firstOffending i s = some a → exec i s = .next { s with exuStatus := .faulted (.addressFault a) }) ∧
    ((∀ a ∈ usedAddresses i s, a < 50) →
      ∃ t e, exec i s = .next t ∧ t.exuStatus = s.exuStatus ∧ t.trace = s.trace ++ [e] ∧ e.instr = i)

/-- The frame of every instruction (R37, R110, R111): it answers a next state in which only the memory, the trace and the
executor's status may differ; every cell but its OperandB reads as before, the trace keeps what it had, and a status that
changed is a fault, with memory and trace as they were.
That a fault is a next state with that status and nothing else changed is R119 with the spec's own decision D7, read as in the
assumption log 4 (DEDUCED). -/
def Obligations.InstructionsChangeOnlyTheirCell : Prop :=
  ∀ (i : Instr) (s : State), ∃ t, exec i s = .next t ∧
    t = { s with mem := t.mem, trace := t.trace, exuStatus := t.exuStatus } ∧
    (∀ a, a ≠ i.opB → t.mem.read a = s.mem.read a) ∧
    (t.exuStatus = s.exuStatus ∧ (∃ e, t.trace = s.trace ++ [e]) ∨
      (∃ a, 50 ≤ a ∧ t.exuStatus = .faulted (.addressFault a)) ∧ t.mem = s.mem ∧ t.trace = s.trace)

/-! ### The executor's loop -/

/-- R31. Where five bytes remain at `pc`, the fetch returns them in order; where fewer do, there is none. -/
def Obligations.FetchReadsFiveBytesInOrder : Prop :=
  ∀ (S : List Byte) (pc : Nat),
    (∀ h : pc + 5 ≤ S.length,
      fetch S pc = some ⟨S[pc]'(by omega), S[pc + 1]'(by omega), S[pc + 2]'(by omega), S[pc + 3]'(by omega),
        S[pc + 4]'(by omega)⟩) ∧
    (S.length - pc < 5 → fetch S pc = none)

/-- R107 to R109 and R118. A step of an execution run whose word at `pc` decodes to a well-formed instruction is `exec` of that
instruction in the state whose `pc` has advanced by 5, followed by the decode-log record, which a fault does not reach. That
the faulted state is a next state is R119 with D7 and the assumption log 4 (DEDUCED). -/
def Obligations.StepRunsTheDecodedInstruction : Prop :=
  ∀ (s t : State) (x : WordBytes) (i : Instr),
    s.activeUnit = .exu → s.exuStatus = .running → fetch s.stream s.pc = some x →
    decodeInstr x = .ok i → exec i { s with pc := s.pc + 5 } = .next t →
    i.wf = true ∧
    step s = .next (if isFaulted t.exuStatus then t else { t with dlog := t.dlog ++ [⟨x,
      (wordOfBytes x).toNat % 128, (wordOfBytes x).toNat / 128 % 128, (wordOfBytes x).toNat / 16384 % 16384⟩] })

/-- R117. A word with any other opcode is logged and skipped: `pc` advances, no cell, no event, no fault, whatever its
operands. That this stays a no-op is the spec's own decision (D6). -/
def Obligations.UnrecognisedOpcodeIsLoggedAndSkipped : Prop :=
  ∀ (s : State) (x : WordBytes),
    s.activeUnit = .exu → s.exuStatus = .running → fetch s.stream s.pc = some x →
    (wordOfBytes x).toNat % 128 ≠ 121 → (wordOfBytes x).toNat % 128 ≠ 18 →
    (wordOfBytes x).toNat % 128 ≠ 44 → (wordOfBytes x).toNat % 128 ≠ 4 →
    step s = .next { s with
      pc := s.pc + 5
      dlog := s.dlog ++ [⟨x, (wordOfBytes x).toNat % 128, (wordOfBytes x).toNat / 128 % 128,
        (wordOfBytes x).toNat / 16384 % 16384⟩] }

/-- The host's door into the machine (assumption log 17): `withFetchWord` puts its word where the next step fetches, with the
executor's run in progress, and changes nothing but the stream. -/
def Obligations.PlacedWordIsFetchedNext : Prop :=
  ∀ (s : State) (nbits w : Nat), ∃ t, s.withFetchWord nbits w = t ∧
    t = { s with stream := t.stream, exuStatus := .running, activeUnit := .exu } ∧
    fetch t.stream t.pc = some (bytesOfWord (BitVec.ofNat 40 (w % 2 ^ nbits))) ∧
    (∀ k, k < s.pc → k < s.stream.length → t.stream[k]? = s.stream[k]?)

/-- R106. With fewer than five bytes left at `pc` a running execution halts and nothing else happens; a step halts a
running execution in no other case. -/
def Obligations.ExhaustedStreamHalts : Prop :=
  ∀ s : State, s.activeUnit = .exu → s.exuStatus = .running →
    (s.stream.length - s.pc < 5 → step s = .next { s with exuStatus := .halted }) ∧
    (∀ t, step s = .next t → t.exuStatus = .halted → s.stream.length - s.pc < 5)

/-- R119. A word whose instruction uses an address of 50 or more faults the run: the status records the first such address,
`pc` has advanced, memory, trace and decode log are as before, no step leaves that state and it has no result
(the spec's own decisions D7 and D18; that the fault, and a step after it, answer next states are the model's readings,
assumption log 4 and 5). -/
def Obligations.FaultFreezesTheRun : Prop :=
  ∀ (s : State) (x : WordBytes) (i : Instr) (a : Nat),
    s.activeUnit = .exu → s.exuStatus = .running → fetch s.stream s.pc = some x →
    decodeInstr x = .ok i → firstOffending i s = some a →
    ∃ t, t = { s with pc := s.pc + 5, exuStatus := .faulted (.addressFault a) } ∧ step s = .next t ∧
      (∀ k, Sys2Proof.core.run k t = .next t) ∧ t.exuResult = .error .noResult

/-- R13 and R107: the fetch advances `pc` by 5, in a step that faults too (R119, D7, assumption log 4), and nothing else
in a run writes it; that a step in a terminal state answers a next state is the assumption log 5 (DEDUCED). -/
def Obligations.OnlyTheFetchMovesThePc : Prop :=
  ∀ s t : State, step s = .next t →
    (s.activeUnit = .exu → s.exuStatus = .running → s.pc + 5 ≤ s.stream.length → t.pc = s.pc + 5) ∧
    (s.activeUnit = .enc ∨ s.exuStatus ≠ .running ∨ s.stream.length < s.pc + 5 → t.pc = s.pc)

/-- R18: HALTED, FAULTED, FAILED and COMMITTED are terminal. No number of steps leaves them or changes anything.
The status items are the spec's own (D18); that a step there answers the same state is the model's reading (assumption
log 5). -/
def Obligations.TerminalStatesAreNeverLeft : Prop :=
  ∀ (s : State) (k : Nat),
    (s.activeUnit = .exu ∧ s.exuStatus ≠ .running ∨ s.activeUnit = .enc ∧ s.encStatus ≠ .running) →
    Sys2Proof.core.run k s = .next s

/-- Every step answers a next state, except the encoder's at a line that is no line of the language, which is refused by
name (R18, R75, R76, R102, R105). That a fault is a next state and not a stop (assumption log 4, DEDUCED), that a step in a
terminal state answers the same state (log 5, DEDUCED) and that the line is refused at the encoder's turn (log 10, DESIGN
CHOICE) are the model's own. -/
def Obligations.StepStopsOnlyAtMalformedLines : Prop :=
  ∀ s : State,
    (∃ t, step s = .next t) ∨
    (s.activeUnit = .enc ∧ s.encStatus = .running ∧
      ∃ text rest, s.sourceText = .malformed text :: rest ∧ step s = .refused (.malformedLine text))

/-- R15, R26, R30, R42. The executor's step changes nothing of the encoder and none of its own inputs; the encoder's changes
nothing of the executor, its memory and its stream. -/
def Obligations.UnitsDoNotTouchEachOther : Prop :=
  ∀ s t : State, step s = .next t →
    (s.activeUnit = .exu →
      t = { s with pc := t.pc, mem := t.mem, trace := t.trace, dlog := t.dlog, exuStatus := t.exuStatus }) ∧
    (s.activeUnit = .enc →
      t = { s with
        encWords := t.encWords, encLog := t.encLog, encStatus := t.encStatus,
        binOut := t.binOut, logOut := t.logOut, sourceText := t.sourceText })

/-! ### Invariants of a run -/

/-- R14: every step keeps `pc` a multiple of 5 within the stream, and a halted run has fewer than 5 bytes left. -/
def Obligations.StepKeepsPcInv : Prop := ∀ s t : State, PcInv s → step s = .next t → PcInv t

/-- R16: every step keeps every cell at most 16383. -/
def Obligations.StepKeepsCellsInv : Prop := ∀ s t : State, CellsInv s → step s = .next t → CellsInv t

/-- R40: every step keeps the memory canonical and equal to the latest traced write to each cell. -/
def Obligations.StepKeepsMemoryInv : Prop := ∀ s t : State, MemoryInv s → step s = .next t → MemoryInv t

/-- R22, R118, R119: every step keeps the decode log the record of the words fetched, in order. A faulted word has moved `pc`
and has no record (D7, assumption log 4). -/
def Obligations.StepKeepsDecodeLogInv : Prop :=
  ∀ s t : State, DecodeLogInv s → step s = .next t → DecodeLogInv t

/-- R21, R117: every step keeps the trace the list of the defined instructions in the decode log, in order. -/
def Obligations.StepKeepsTraceInv : Prop :=
  ∀ s t : State, TraceInv s → step s = .next t → TraceInv t

/-- R19, R20, R83, R86, R89: every step keeps the encoder's words, log and outputs consistent. -/
def Obligations.StepKeepsEncoderInv : Prop := ∀ s t : State, EncoderInv s → step s = .next t → EncoderInv t

/-- The invariants hold at reset and at the start of every run, from whatever state the run is started. -/
def Obligations.InvariantsHoldAtTheStartOfARun : Prop :=
  (PcInv State.reset ∧ CellsInv State.reset ∧ MemoryInv State.reset ∧ DecodeLogInv State.reset ∧
    TraceInv State.reset ∧ EncoderInv State.reset) ∧
  (∀ (s : State) (S : List Byte) (first last : Nat),
    PcInv (s.exuReset S first last) ∧ CellsInv (s.exuReset S first last) ∧ MemoryInv (s.exuReset S first last) ∧
    DecodeLogInv (s.exuReset S first last) ∧ TraceInv (s.exuReset S first last)) ∧
  (∀ (s : State) (text : List SourceLine), EncoderInv (s.encReset text))

/-- R25 and R150: the state at reset, item by item, and what the start of each kind of run sets. That the inputs and the
active unit are set with it, and that the other unit's items stay, are the model's own choices (assumption log 1, 2, 20). -/
def Obligations.RunsStartFromTheResetState : Prop :=
  (State.reset.pc = 0 ∧ (∀ a, State.reset.mem.read a = 0) ∧ State.reset.trace = [] ∧ State.reset.dlog = [] ∧
    State.reset.exuStatus = .running ∧ State.reset.encWords = [] ∧ State.reset.encLog = [] ∧
    State.reset.encStatus = .running ∧ State.reset.binOut = none ∧ State.reset.logOut = none) ∧
  (∀ (s : State) (S : List Byte) (first last : Nat), s.exuReset S first last =
    { s with
      pc := 0, mem := State.reset.mem, trace := [], dlog := [], exuStatus := .running
      stream := S, reportRange := (first, last), activeUnit := .exu }) ∧
  (∀ (s : State) (text : List SourceLine), s.encReset text =
    { s with
      encWords := [], encLog := [], encStatus := .running, binOut := none, logOut := none
      sourceText := text, activeUnit := .enc })

/-! ### Whole execution runs -/

/-- R124 ("Every run ends"), R159: within `floor(L / 5) + 1` steps an execution run is halted or faulted; a halted run has
fetched every whole word, `pc = 5 * floor(L / 5)`, and logged each of them. A faulted run is no longer RUNNING, but FAULTED is
no end of a run (R119, R159). That a fault is a next state, and that the steps left after a fault or a halt
change nothing, are the model's readings, assumption log 4 and 5 (DEDUCED). -/
def Obligations.EveryExecutionRunEnds : Prop :=
  ∀ (s : State) (S : List Byte) (first last : Nat), ∃ t : State,
    Sys2Proof.core.run (S.length / 5 + 1) (s.exuReset S first last) = .next t ∧
    t.exuStatus ≠ .running ∧ t.pc ≤ 5 * (S.length / 5) ∧
    (t.exuStatus = .halted → t.pc = 5 * (S.length / 5) ∧ t.dlog.length = S.length / 5)

/-- R124, R26: the state of an execution run is a function of the stream alone, whatever the machine held before and
whatever the report range; the result is a function of the stream and the range. That a run
may take further steps after a halt or a fault, which change nothing, is the assumption log 5 (DEDUCED). -/
def Obligations.ExecutionDependsOnTheStreamAlone : Prop :=
  ∀ (s₁ s₂ t₁ t₂ : State) (S : List Byte) (f₁ l₁ f₂ l₂ k : Nat),
    Sys2Proof.core.run k (s₁.exuReset S f₁ l₁) = .next t₁ →
    Sys2Proof.core.run k (s₂.exuReset S f₂ l₂) = .next t₂ →
    t₁.pc = t₂.pc ∧ t₁.mem = t₂.mem ∧ t₁.trace = t₂.trace ∧ t₁.dlog = t₂.dlog ∧
    t₁.exuStatus = t₂.exuStatus ∧ (f₁ = f₂ → l₁ = l₂ → t₁.exuResult = t₂.exuResult)

/-- R120, R105: of a halted run and a report range within the memory the result is the slice, the whole decode log and the
whole trace; anything else is refused (for the ranges the spec's own decision D16; for a run that has not halted the
model's own choice, assumption log 12). -/
def Obligations.ResultIsTheRequestedSlice : Prop :=
  ∀ (s : State) (first last : Nat), s.reportRange = (first, last) →
    (s.exuStatus = .halted → first ≤ last → last ≤ 50 → ∃ r, s.exuResult = .ok r ∧
      r.memory.length = last - first ∧ (∀ k, k < last - first → r.memory[k]? = some (s.mem.read (first + k))) ∧
      r.log = s.dlog ∧ r.executionSteps = s.trace) ∧
    (s.exuStatus = .halted → last < first ∨ 50 < last → s.exuResult = .error (.reportRangeOutside first last)) ∧
    (s.exuStatus ≠ .halted → s.exuResult = .error .noResult)

/-! ### DEC -/

/-- R96 to R100 and R47's byte view: DEC's four outputs for any five bytes, whatever the opcode. The 14-bit read
of OperandC for every opcode is the spec's own decision D5 (R98), and `known` is its own addition (R99, D6). -/
def Obligations.DecoderReadsOneFixedLayout : Prop :=
  ∀ x : WordBytes,
    (decode x).A = x.b0.toNat % 128 ∧
    (decode x).B = x.b1.toNat % 64 * 2 + x.b0.toNat / 128 ∧
    (decode x).C = x.b3.toNat % 16 * 1024 + x.b2.toNat * 4 + x.b1.toNat / 64 ∧
    ((decode x).known = true ↔ (decode x).A = 4 ∨ (decode x).A = 18 ∨ (decode x).A = 44 ∨ (decode x).A = 121)

/-- R32, R68, R96: the byte order. A word and its five bytes determine each other, byte `k` being bits `8k+7` to `8k`. -/
def Obligations.WordsAreLittleEndian : Prop :=
  (∀ x : WordBytes, bytesOfWord (wordOfBytes x) = x ∧
    (wordOfBytes x).toNat = x.b0.toNat + 2 ^ 8 * x.b1.toNat + 2 ^ 16 * x.b2.toNat + 2 ^ 24 * x.b3.toNat +
      2 ^ 32 * x.b4.toNat) ∧
  (∀ w : Word, wordOfBytes (bytesOfWord w) = w ∧
    (bytesOfWord w).b0.toNat = w.toNat % 256 ∧ (bytesOfWord w).b1.toNat = w.toNat / 2 ^ 8 % 256 ∧
    (bytesOfWord w).b2.toNat = w.toNat / 2 ^ 16 % 256 ∧ (bytesOfWord w).b3.toNat = w.toNat / 2 ^ 24 % 256 ∧
    (bytesOfWord w).b4.toNat = w.toNat / 2 ^ 32)

/-- R54, R103: bits 39 to 28 reach no output of DEC, and two words that differ only there execute the same way; only the raw
bytes in the decode log differ. -/
def Obligations.IgnoredBitsChangeNoExecution : Prop :=
  ∀ (w₁ w₂ : Word), w₁.toNat % 2 ^ 28 = w₂.toNat % 2 ^ 28 →
    decode (bytesOfWord w₁) = decode (bytesOfWord w₂) ∧
    ∀ (s t₁ t₂ : State), step (s.placeWord w₁) = .next t₁ → step (s.placeWord w₂) = .next t₂ →
      t₁.pc = t₂.pc ∧ t₁.mem = t₂.mem ∧ t₁.trace = t₂.trace ∧ t₁.exuStatus = t₂.exuStatus ∧
      t₁.dlog.map (fun r => (r.A, r.B, r.C)) = t₂.dlog.map (fun r => (r.A, r.B, r.C))

/-- R55: a word that decodes to an instruction ENC cannot write is a READ_MEM, WRITE_MEM or MOD with some of the bits above
ENC's width set, and executing it always raises AddressFault at OperandC. The rule is the spec's own inference; that
the access faults and what state the fault leaves is R119 with the spec's own decision D7, after the fetch of R107, and that it
is a next state is the assumption log 4 (DEDUCED). -/
def Obligations.NonCanonicalOperandAlwaysFaults : Prop :=
  ∀ (s : State) (x : WordBytes) (i : Instr),
    s.activeUnit = .exu → s.exuStatus = .running → fetch s.stream s.pc = some x →
    decodeInstr x = .ok i → i.canonical = false →
    i.mnemonic ≠ .loadConst ∧
    step s = .next { s with pc := s.pc + 5, exuStatus := .faulted (.addressFault i.opC) }

/-- R61: the first byte of every word. -/
def Obligations.FirstByteHoldsOpcodeAndLowBitOfB : Prop :=
  ∀ x : WordBytes, x.b0.toNat = (decode x).A + 128 * ((decode x).B % 2) ∧
    ((decode x).known = true →
      x.b0 ∈ [0x79#8, 0xF9#8, 0x12#8, 0x92#8, 0x2C#8, 0xAC#8, 0x04#8, 0x84#8])

/-- R62, R109: matching a word on the table's MATCH and MASK selects the row, the opcode alone deciding; when no row matches
the word is no instruction. That the decoder into `Instr` then answers a rejection by name is the model's own choice
(assumption log 16, DESIGN CHOICE): DEC itself is total and raises nothing (R102), and the machine logs and skips such a word
(R117). -/
def Obligations.TableMatchSelectsTheInstruction : Prop :=
  ∀ w : Word,
    (∀ m : Mnemonic, w &&& 0x000000007F#40 = tableMatch m ↔ ∃ i, decodeWord w = .ok i ∧ i.mnemonic = m) ∧
    ((∀ m : Mnemonic, w &&& 0x000000007F#40 ≠ tableMatch m) →
      decodeWord w = .error (.unrecognisedOpcode (w.toNat % 128)))

/-- A few words written out from the encodings of R47 and R48, and what they decode to (vectors K1, K2, K5, K15 and the
word of `MOD 5 6`, E14). That the all-ones word, whose opcode selects nothing (R56), is rejected by name is the model's own
choice (assumption log 16, DESIGN CHOICE): DEC itself decodes it, with `known` 0 (R102). A sanity statement. -/
def Obligations.WordsFromTheEncodingTablesDecode : Prop :=
  decodeBytes [0xF9, 0x42, 0x0E, 0x0C, 0x00] = .ok (.loadConst 5 12345) ∧
  decodeBytes [0x92, 0x81, 0x00, 0x00, 0x00] = .ok (.readMem 3 2) ∧
  decodeBytes [0xAC, 0x01, 0x4B, 0x00, 0x00] = .ok (.writeMem 3 300) ∧
  decodeBytes [0x84, 0x82, 0x01, 0x00, 0x00] = .ok (.mod 5 6) ∧
  decodeBytes [0x12, 0x81, 0x20, 0x00, 0x00] = .ok (.readMem 2 130) ∧
  decodeBytes [0xFF, 0xFF, 0xFF, 0xFF, 0xFF] = .error (.unrecognisedOpcode 127)

/-- Decode after encode, for every instruction and every operand that format D can hold (R47, R49, R51): no bit of either
operand is dropped, also with more bytes behind the word. The word of an instruction ENC cannot write is the model's own
choice (assumption log 18). -/
def Obligations.DecodeInvertsEncode : Prop :=
  ∀ i : Instr, i.wf = true →
    decodeWord (encode i) = .ok i ∧
    (∀ rest : List Byte, decodeBytes (listOfBytes (bytesOfWord (encode i)) ++ rest) = .ok i) ∧
    decodeTableWord 40 (encode i).toNat = some i

/-- What DEC delivers is well-formed, for every word (R97, R98, R100: the ranges of the fields). -/
def Obligations.DecodedInstructionsAreWellFormed : Prop :=
  ∀ (w : Word) (i : Instr), decodeWord w = .ok i → i.wf = true

/-! ### PACK -/

/-- R66, R69, R70: PACK refuses a list wider than 40 bits (the spec's own decision D10), also when a value overflows (the
model's own choice of the order of the two tests, assumption log 11); within 40 bits it fails exactly when some value does not
fit. -/
def Obligations.PackFailsExactlyOnOverflow : Prop :=
  ∀ fields : List PackField,
    (40 < totalWidth fields → pack fields = .refused (.fieldListTooWide (totalWidth fields))) ∧
    (totalWidth fields ≤ 40 → (pack fields = .fieldOverflow ↔ ∃ f ∈ fields, 2 ^ f.width ≤ f.value)) ∧
    (totalWidth fields ≤ 40 → ∀ r, pack fields ≠ .refused r)

/-- R67, R68: every field lies at the sum of the widths before it, and every bit above the total width is zero. -/
def Obligations.PackPlacesEveryField : Prop :=
  ∀ fields : List PackField, totalWidth fields ≤ 40 → (∀ f ∈ fields, f.value < 2 ^ f.width) →
    ∃ w, pack fields = .word w ∧ w.toNat < 2 ^ totalWidth fields ∧
      ∀ before f after, fields = before ++ f :: after →
        w.toNat / 2 ^ totalWidth before % 2 ^ f.width = f.value

/-- R71 (f): for a fixed list of widths PACK is injective on the values. -/
def Obligations.PackIsInjectiveOnValues : Prop :=
  ∀ (f g : List PackField) (w : Word), f.map (·.width) = g.map (·.width) →
    pack f = .word w → pack g = .word w → f = g

/-! ### ENC -/

/-- R88, R77 to R81: the word of every mnemonic, and FieldOverflowError outside its widths. -/
def Obligations.EncodeWordGivesTheMnemonicsFormat : Prop :=
  ∀ (m : Mnemonic) (b c : Nat),
    ∃ opcode width, (m, opcode, width) ∈
      [(Mnemonic.loadConst, 121, 14), (Mnemonic.readMem, 18, 7), (Mnemonic.writeMem, 44, 9), (Mnemonic.mod, 4, 7)] ∧
    (b < 128 → c < 2 ^ width → ∃ w, encodeWord m.text b c = .word m w ∧
      w.toNat = opcode + 128 * b + 16384 * c) ∧
    (128 ≤ b ∨ 2 ^ width ≤ c → encodeWord m.text b c = .failed .fieldOverflow)

/-- R82, R85, R90: any other token is an unknown command, matched exactly and tested before the operands. -/
def Obligations.OtherTokensAreUnknownCommands : Prop :=
  ∀ (token : String) (b c : Nat),
    encodeWord token b c = .failed (.unknownCommand token) ↔
      token ≠ "LOAD_CONST" ∧ token ≠ "READ_MEM" ∧ token ≠ "WRITE_MEM" ∧ token ≠ "MOD"

/-- R84: a successful line appends its word and its record to the pending sequences, and nothing else changes. -/
def Obligations.SuccessfulLineAppendsItsWord : Prop :=
  ∀ (s : State) (m : Mnemonic) (b c : Nat) (w : Word), s.encStatus = .running →
    encodeWord m.text b c = .word m w →
    encLine m.text b c s = .next { s with
      encWords := s.encWords ++ [w]
      encLog := s.encLog ++ [⟨opc m, m.text, b, c, ⟨w.extractLsb' 0 8, w.extractLsb' 8 8, w.extractLsb' 16 8,
        w.extractLsb' 24 8, w.extractLsb' 32 8⟩⟩] }

/-- R83: a failing line discards what is pending and records the condition; the outputs stay absent for the rest of the
run, however many steps follow. That nothing leaves FAILED is R18 and R76 with the spec's own decisions D18 and D22; that a step
there answers the same state is the model's reading, assumption log 5 (DEDUCED). -/
def Obligations.FailingLinePersistsNothing : Prop :=
  ∀ (s : State) (token : String) (b c : Nat) (e : EncError), s.activeUnit = .enc → s.encStatus = .running →
    s.binOut = none → s.logOut = none → encodeWord token b c = .failed e →
    ∃ t, encLine token b c s = .next t ∧ t = { s with encStatus := .failed e, encWords := [], encLog := [] } ∧
      ∀ k, ∃ u : State, Sys2Proof.core.run k t = .next u ∧ u.encStatus = .failed e ∧
        u.binOut = none ∧ u.logOut = none ∧ u.encResult = none

/-- R76: in FAILED and COMMITTED neither a line nor the end of the text has any effect (the spec's own decision D22; that the
step answers the same state is the model's reading, assumption log 5). -/
def Obligations.EncoderActsOnlyWhileRunning : Prop :=
  ∀ (s : State) (token : String) (b c : Nat), s.encStatus ≠ .running →
    encLine token b c s = .next s ∧ encEnd s = .next s ∧ (s.activeUnit = .enc → step s = .next s)

/-- R86: the commit sets both outputs and the status in one step; the stream is the words' bytes in order. -/
def Obligations.CommitPublishesBothOutputs : Prop :=
  ∀ s : State, s.activeUnit = .enc → s.encStatus = .running → s.sourceText = [] →
    ∃ bytes, step s = .next { s with binOut := some bytes, logOut := some s.encLog, encStatus := .committed } ∧
      bytes.length = 5 * s.encWords.length ∧
      ∀ k w, s.encWords[k]? = some w → fetch bytes (5 * k) = some (bytesOfWord w)

/-- R87: the empty program commits empty outputs, and executing its empty stream halts at once (the spec's own decision D17). -/
def Obligations.EmptyProgramCommitsEmptyOutputs : Prop :=
  ∀ (s : State) (first last : Nat), ∃ t u,
    step (s.encReset []) = .next t ∧ t.encStatus = .committed ∧ t.encResult = some ([], []) ∧
    t.handOver first last = .ok u ∧
    step u = .next { u with exuStatus := .halted } ∧ u.pc = 0 ∧ u.mem = []

/-- R75: a line that is not a token and two natural numbers never reaches ENC; the model refuses it (the spec's own decision D13;
that a text may hold such a line at all is the model's own choice, assumption log 10). -/
def Obligations.MalformedLineIsRefused : Prop :=
  ∀ (s : State) (text : String) (rest : List SourceLine), s.activeUnit = .enc → s.encStatus = .running →
    s.sourceText = .malformed text :: rest → step s = .refused (.malformedLine text)

/-- R43, R26: EXU gets the committed stream and nothing else; an encoding run that committed nothing hands over nothing.
The hand-off as a function is the model's own (assumption log 23). -/
def Obligations.OnlyACommittedStreamIsHandedOver : Prop :=
  ∀ (s : State) (first last : Nat), EncoderInv s →
    (s.encStatus = .committed → ∃ u bytes, s.handOver first last = .ok u ∧ s.binOut = some bytes ∧
      u.stream = bytes ∧ u.pc = 0 ∧ u.mem = [] ∧ u.exuStatus = .running ∧ u.reportRange = (first, last)) ∧
    (s.encStatus ≠ .committed → s.handOver first last = .error .noCommittedStream)

/-- R101: what ENC encodes DEC decodes, for every mnemonic and over the whole range ENC accepts. -/
def Obligations.DecoderRecoversEncodedLines : Prop :=
  ∀ (m : Mnemonic) (b c : Nat), b ≤ 127 → c < 2 ^ encWidthC m →
    ∃ w, encodeWord m.text b c = .word m w ∧ decode (bytesOfWord w) = ⟨opc m, b, c, true⟩

/-- R104: encoding what was decoded gives the word back exactly for canonical words; with ignored bits set it clears them,
and with an operand beyond ENC's width it fails. -/
def Obligations.ReencodingGivesCanonicalWordsBack : Prop :=
  ∀ (w : Word) (i : Instr), decodeWord w = .ok i →
    (encodeWord i.mnemonic.text i.opB i.opC = .word i.mnemonic w ↔ w.toNat < 2 ^ 28 ∧ i.canonical = true) ∧
    (i.canonical = true → ∃ w', encodeWord i.mnemonic.text i.opB i.opC = .word i.mnemonic w' ∧
      w'.toNat = w.toNat % 2 ^ 28) ∧
    (i.canonical = false → encodeWord i.mnemonic.text i.opB i.opC = .failed .fieldOverflow)

/-- R52, R89 (a) to (c) and (e): ENC's words are exactly the canonical words, each from exactly one line; they are below
2^28 and never zero. -/
def Obligations.EncoderWordsAreTheCanonicalWords : Prop :=
  (∀ w : Word, (∃ token b c m, encodeWord token b c = .word m w) ↔
    ∃ m b c, b ≤ 127 ∧ c < 2 ^ encWidthC m ∧ w.toNat = opc m + 2 ^ 7 * b + 2 ^ 14 * c) ∧
  (∀ (t₁ t₂ : String) (b₁ c₁ b₂ c₂ : Nat) (m₁ m₂ : Mnemonic) (w : Word),
    encodeWord t₁ b₁ c₁ = .word m₁ w → encodeWord t₂ b₂ c₂ = .word m₂ w → t₁ = t₂ ∧ b₁ = b₂ ∧ c₁ = c₂) ∧
  (∀ (token : String) (b c : Nat) (m : Mnemonic) (w : Word), encodeWord token b c = .word m w →
    w.toNat < 2 ^ 28 ∧ w ≠ 0 ∧ (bytesOfWord w).b4 = 0 ∧ (bytesOfWord w).b3.toNat ≤ 0x0F)

/-- R52: how many words ENC can make. -/
def Obligations.CanonicalWordCount : Prop :=
  Nat.card { w : Word // ∃ token b c m, encodeWord token b c = .word m w } = 2195456

/-! ### Whole encoding runs, and both units together -/

/-- R83 to R86: an encoding run is all or nothing. If every line encodes, the run commits the words of the lines in order
and one record a line; otherwise the first failing line decides the condition and nothing is persisted. The steps
left after a failure change nothing (R76, D22; assumption log 5, DEDUCED). -/
def Obligations.EncodingRunIsAllOrNothing : Prop :=
  ∀ (s : State) (ls : List (String × Nat × Nat)), ∃ t : State,
    Sys2Proof.core.run (ls.length + 1) (s.encReset (ls.map fun l => .instr l.1 l.2.1 l.2.2)) = .next t ∧
    (∀ ws : List Word, List.Forall₂ (fun l w => ∃ m, encodeWord l.1 l.2.1 l.2.2 = .word m w) ls ws →
      t.encStatus = .committed ∧ ∃ log,
        t.encResult = some (ws.flatMap fun w => listOfBytes (bytesOfWord w), log) ∧
        List.Forall₂ (fun (l : String × Nat × Nat) (r : AssemblyRecord) =>
          r.command = l.1 ∧ r.B = l.2.1 ∧ r.C = l.2.2) ls log ∧
        List.Forall₂ (fun (w : Word) (r : AssemblyRecord) =>
          r.bytes = bytesOfWord w ∧ r.A = w.toNat % 128) ws log) ∧
    (∀ before l after e, ls = before ++ l :: after →
      (∀ l' ∈ before, ∃ m w, encodeWord l'.1 l'.2.1 l'.2.2 = .word m w) →
      encodeWord l.1 l.2.1 l.2.2 = .failed e →
      t.encStatus = .failed e ∧ t.encWords = [] ∧ t.encLog = [] ∧ t.binOut = none ∧ t.logOut = none)

/-- R89, last sentence: a committed stream is whole words, each of which decodes to an instruction of the four that ENC can
write, so executing it never meets an unrecognised opcode or a truncated word. -/
def Obligations.CommittedStreamsHoldOnlyInstructions : Prop :=
  ∀ (s : State) (S : List Byte), EncoderInv s → s.binOut = some S →
    S.length % 5 = 0 ∧
    ∀ k, 5 * k < S.length → ∃ x i, fetch S (5 * k) = some x ∧ decodeInstr x = .ok i ∧ i.canonical = true

/-- Encoding a program and executing the committed stream does the program's instructions one after the other, up to the
first fault, or else halts (R26, R40, R51, R89, R109, R121): the memory, the trace and the status are those of
`execInOrder`. That a fault is a next state (log 4), that the steps left after it change nothing (log 5) and that the hand-off
is one function (log 23) are the model's own readings and choices in the assumption log. -/
def Obligations.EncodedProgramRunsItsInstructions : Prop :=
  ∀ (s : State) (is : List Instr) (first last : Nat), (∀ i ∈ is, i.canonical = true) →
    ∃ t u v : State, Sys2Proof.core.run (is.length + 1) (s.encReset (is.map sourceLine)) = .next t ∧
      t.handOver first last = .ok u ∧
      Sys2Proof.core.run (is.length + 1) u = .next v ∧
      v.mem = (execInOrder is u).mem ∧ v.trace = (execInOrder is u).trace ∧
      v.exuStatus =
        (if isFaulted (execInOrder is u).exuStatus then (execInOrder is u).exuStatus else .halted)
end

