-- ==== Sys2Proof/Laws/Decode.lean ====
section
/-! SUPPORT. Fields and words as numbers: each bit field, word and byte of Decode.lean as arithmetic on naturals, so that later
proofs about encodings are linear arithmetic. -/

namespace Sys2Proof

theorem bitField_eq (w : Word) (lo width : Nat) : bitField w lo width = w.toNat / 2 ^ lo % 2 ^ width := by
  simp [bitField, BitVec.extractLsb'_toNat, Nat.shiftRight_eq_div_pow]

theorem opcodeField_eq (w : Word) : opcodeField w = w.toNat % 128 := by
  simp [opcodeField, bitField_eq, Config.opcWidth]

theorem operandBField_eq (w : Word) : operandBField w = w.toNat / 128 % 128 := by
  simp [operandBField, bitField_eq, Config.opcWidth, Config.bWidth]

theorem operandCField_eq (w : Word) : operandCField w = w.toNat / 16384 % 16384 := by
  simp [operandCField, bitField_eq, Config.opcWidth, Config.bWidth, Config.cDecWidth]

theorem opcodeField_lt (w : Word) : opcodeField w < 128 := by
  rw [opcodeField_eq]; omega

theorem operandBField_lt (w : Word) : operandBField w < 128 := by
  rw [operandBField_eq]; omega

theorem operandCField_lt (w : Word) : operandCField w < 16384 := by
  rw [operandCField_eq]; omega

theorem opc_lt (m : Mnemonic) : opc m < 128 := by cases m <;> decide

theorem encWidthC_le (m : Mnemonic) : encWidthC m ≤ 14 := by cases m <;> decide

@[simp] theorem mnemonicOfOpcode_opc (m : Mnemonic) : mnemonicOfOpcode (opc m) = some m := by cases m <;> rfl

@[simp] theorem mnemonicOfText_text (m : Mnemonic) : mnemonicOfText m.text = some m := by cases m <;> decide

/-- Only the opcode of a mnemonic selects it. -/
theorem mnemonicOfOpcode_eq_some {a : Nat} {m : Mnemonic} : mnemonicOfOpcode a = some m ↔ a = opc m := by
  constructor
  · intro h
    simp only [mnemonicOfOpcode] at h
    split_ifs at h with h1 h2 h3 h4 <;> cases h <;> assumption
  · rintro rfl
    exact mnemonicOfOpcode_opc m

/-- Only the text of a mnemonic spells it. -/
theorem mnemonicOfText_eq_some {t : String} {m : Mnemonic} : mnemonicOfText t = some m ↔ t = m.text := by
  constructor
  · intro h
    simp only [mnemonicOfText] at h
    split_ifs at h with h1 h2 h3 h4 <;> cases h <;> assumption
  · rintro rfl
    exact mnemonicOfText_text m

@[simp] theorem Instr.ofMnemonic_mnemonic (m : Mnemonic) (b c : Nat) : (Instr.ofMnemonic m b c).mnemonic = m := by
  cases m <;> rfl

@[simp] theorem Instr.ofMnemonic_opB (m : Mnemonic) (b c : Nat) : (Instr.ofMnemonic m b c).opB = b := by
  cases m <;> rfl

@[simp] theorem Instr.ofMnemonic_opC (m : Mnemonic) (b c : Nat) : (Instr.ofMnemonic m b c).opC = c := by
  cases m <;> rfl

@[simp] theorem Instr.ofMnemonic_self (i : Instr) : Instr.ofMnemonic i.mnemonic i.opB i.opC = i := by
  cases i <;> rfl

theorem Instr.wf_iff (i : Instr) : i.wf = true ↔ i.opB < 128 ∧ i.opC < 16384 := by
  cases i <;> simp [Instr.wf, operandBFits, operandCFits, Instr.opB, Instr.opC, Config.bWidth, Config.cDecWidth]

theorem Instr.canonical_iff (i : Instr) :
    i.canonical = true ↔ i.opB < 128 ∧ i.opC < 2 ^ encWidthC i.mnemonic := by
  simp [Instr.canonical, Config.bWidth]

/-- The word of a well-formed instruction as a number. -/
theorem encode_toNat {i : Instr} (h : i.wf = true) :
    (encode i).toNat = opc i.mnemonic + 128 * i.opB + 16384 * i.opC := by
  rw [Instr.wf_iff] at h
  have := opc_lt i.mnemonic
  simp only [encode, BitVec.toNat_ofNat, Config.opcWidth, Config.bWidth, Config.wordBits]
  omega

/-- DEC's instruction for five bytes, in terms of the word's fields. -/
theorem decodeInstr_eq_ok {x : WordBytes} {i : Instr} :
    decodeInstr x = .ok i ↔ opcodeField (wordOfBytes x) = opc i.mnemonic ∧
      operandBField (wordOfBytes x) = i.opB ∧ operandCField (wordOfBytes x) = i.opC := by
  constructor
  · intro h
    simp only [decodeInstr, decode] at h
    split at h
    · next m hm =>
      cases h
      simp [mnemonicOfOpcode_eq_some.1 hm]
    · cases h
  · rintro ⟨ha, hb, hc⟩
    simp [decodeInstr, decode, ha, hb, hc]

/-- DEC rejects exactly the words whose opcode selects nothing. -/
theorem decodeInstr_eq_error {x : WordBytes} {r : DecodeReject} :
    decodeInstr x = .error r ↔
      mnemonicOfOpcode (opcodeField (wordOfBytes x)) = none ∧ r = .unrecognisedOpcode (opcodeField (wordOfBytes x)) := by
  simp only [decodeInstr, decode]
  split
  · next m hm => simp [hm]
  · next hm => simp [hm, eq_comm]

end Sys2Proof
end

