-- ==== Sys2Proof/Laws/State.lean ====
section
/-! SUPPORT. One lemma per field per update of the state, each true by rfl, so that no later proof unfolds a record update. -/

namespace Sys2Proof.Machine

variable (s : State)

/-! ### `writeCell` -/

@[simp] theorem State.writeCell_pc (a v : Nat) : (s.writeCell a v).pc = s.pc := rfl
@[simp] theorem State.writeCell_mem (a v : Nat) : (s.writeCell a v).mem = s.mem.write a v := rfl
@[simp] theorem State.writeCell_trace (a v : Nat) : (s.writeCell a v).trace = s.trace := rfl
@[simp] theorem State.writeCell_dlog (a v : Nat) : (s.writeCell a v).dlog = s.dlog := rfl
@[simp] theorem State.writeCell_exuStatus (a v : Nat) : (s.writeCell a v).exuStatus = s.exuStatus := rfl
@[simp] theorem State.writeCell_encWords (a v : Nat) : (s.writeCell a v).encWords = s.encWords := rfl
@[simp] theorem State.writeCell_encLog (a v : Nat) : (s.writeCell a v).encLog = s.encLog := rfl
@[simp] theorem State.writeCell_encStatus (a v : Nat) : (s.writeCell a v).encStatus = s.encStatus := rfl
@[simp] theorem State.writeCell_binOut (a v : Nat) : (s.writeCell a v).binOut = s.binOut := rfl
@[simp] theorem State.writeCell_logOut (a v : Nat) : (s.writeCell a v).logOut = s.logOut := rfl
@[simp] theorem State.writeCell_stream (a v : Nat) : (s.writeCell a v).stream = s.stream := rfl
@[simp] theorem State.writeCell_reportRange (a v : Nat) : (s.writeCell a v).reportRange = s.reportRange := rfl
@[simp] theorem State.writeCell_sourceText (a v : Nat) : (s.writeCell a v).sourceText = s.sourceText := rfl
@[simp] theorem State.writeCell_activeUnit (a v : Nat) : (s.writeCell a v).activeUnit = s.activeUnit := rfl

/-! ### `appendTrace` -/

@[simp] theorem State.appendTrace_pc (e : TraceEvent) : (s.appendTrace e).pc = s.pc := rfl
@[simp] theorem State.appendTrace_mem (e : TraceEvent) : (s.appendTrace e).mem = s.mem := rfl
@[simp] theorem State.appendTrace_trace (e : TraceEvent) : (s.appendTrace e).trace = s.trace ++ [e] := rfl
@[simp] theorem State.appendTrace_dlog (e : TraceEvent) : (s.appendTrace e).dlog = s.dlog := rfl
@[simp] theorem State.appendTrace_exuStatus (e : TraceEvent) : (s.appendTrace e).exuStatus = s.exuStatus := rfl
@[simp] theorem State.appendTrace_encWords (e : TraceEvent) : (s.appendTrace e).encWords = s.encWords := rfl
@[simp] theorem State.appendTrace_encLog (e : TraceEvent) : (s.appendTrace e).encLog = s.encLog := rfl
@[simp] theorem State.appendTrace_encStatus (e : TraceEvent) : (s.appendTrace e).encStatus = s.encStatus := rfl
@[simp] theorem State.appendTrace_binOut (e : TraceEvent) : (s.appendTrace e).binOut = s.binOut := rfl
@[simp] theorem State.appendTrace_logOut (e : TraceEvent) : (s.appendTrace e).logOut = s.logOut := rfl
@[simp] theorem State.appendTrace_stream (e : TraceEvent) : (s.appendTrace e).stream = s.stream := rfl
@[simp] theorem State.appendTrace_reportRange (e : TraceEvent) : (s.appendTrace e).reportRange = s.reportRange := rfl
@[simp] theorem State.appendTrace_sourceText (e : TraceEvent) : (s.appendTrace e).sourceText = s.sourceText := rfl
@[simp] theorem State.appendTrace_activeUnit (e : TraceEvent) : (s.appendTrace e).activeUnit = s.activeUnit := rfl

/-! ### `appendDlog` -/

@[simp] theorem State.appendDlog_pc (r : DecodeRecord) : (s.appendDlog r).pc = s.pc := rfl
@[simp] theorem State.appendDlog_mem (r : DecodeRecord) : (s.appendDlog r).mem = s.mem := rfl
@[simp] theorem State.appendDlog_trace (r : DecodeRecord) : (s.appendDlog r).trace = s.trace := rfl
@[simp] theorem State.appendDlog_dlog (r : DecodeRecord) : (s.appendDlog r).dlog = s.dlog ++ [r] := rfl
@[simp] theorem State.appendDlog_exuStatus (r : DecodeRecord) : (s.appendDlog r).exuStatus = s.exuStatus := rfl
@[simp] theorem State.appendDlog_encWords (r : DecodeRecord) : (s.appendDlog r).encWords = s.encWords := rfl
@[simp] theorem State.appendDlog_encLog (r : DecodeRecord) : (s.appendDlog r).encLog = s.encLog := rfl
@[simp] theorem State.appendDlog_encStatus (r : DecodeRecord) : (s.appendDlog r).encStatus = s.encStatus := rfl
@[simp] theorem State.appendDlog_binOut (r : DecodeRecord) : (s.appendDlog r).binOut = s.binOut := rfl
@[simp] theorem State.appendDlog_logOut (r : DecodeRecord) : (s.appendDlog r).logOut = s.logOut := rfl
@[simp] theorem State.appendDlog_stream (r : DecodeRecord) : (s.appendDlog r).stream = s.stream := rfl
@[simp] theorem State.appendDlog_reportRange (r : DecodeRecord) : (s.appendDlog r).reportRange = s.reportRange := rfl
@[simp] theorem State.appendDlog_sourceText (r : DecodeRecord) : (s.appendDlog r).sourceText = s.sourceText := rfl
@[simp] theorem State.appendDlog_activeUnit (r : DecodeRecord) : (s.appendDlog r).activeUnit = s.activeUnit := rfl

/-! ### `advancePc` -/

@[simp] theorem State.advancePc_pc : s.advancePc.pc = s.pc + 5 := rfl
@[simp] theorem State.advancePc_mem : s.advancePc.mem = s.mem := rfl
@[simp] theorem State.advancePc_trace : s.advancePc.trace = s.trace := rfl
@[simp] theorem State.advancePc_dlog : s.advancePc.dlog = s.dlog := rfl
@[simp] theorem State.advancePc_exuStatus : s.advancePc.exuStatus = s.exuStatus := rfl
@[simp] theorem State.advancePc_encWords : s.advancePc.encWords = s.encWords := rfl
@[simp] theorem State.advancePc_encLog : s.advancePc.encLog = s.encLog := rfl
@[simp] theorem State.advancePc_encStatus : s.advancePc.encStatus = s.encStatus := rfl
@[simp] theorem State.advancePc_binOut : s.advancePc.binOut = s.binOut := rfl
@[simp] theorem State.advancePc_logOut : s.advancePc.logOut = s.logOut := rfl
@[simp] theorem State.advancePc_stream : s.advancePc.stream = s.stream := rfl
@[simp] theorem State.advancePc_reportRange : s.advancePc.reportRange = s.reportRange := rfl
@[simp] theorem State.advancePc_sourceText : s.advancePc.sourceText = s.sourceText := rfl
@[simp] theorem State.advancePc_activeUnit : s.advancePc.activeUnit = s.activeUnit := rfl

/-! ### `halt` -/

@[simp] theorem State.halt_pc : s.halt.pc = s.pc := rfl
@[simp] theorem State.halt_mem : s.halt.mem = s.mem := rfl
@[simp] theorem State.halt_trace : s.halt.trace = s.trace := rfl
@[simp] theorem State.halt_dlog : s.halt.dlog = s.dlog := rfl
@[simp] theorem State.halt_exuStatus : s.halt.exuStatus = .halted := rfl
@[simp] theorem State.halt_encWords : s.halt.encWords = s.encWords := rfl
@[simp] theorem State.halt_encLog : s.halt.encLog = s.encLog := rfl
@[simp] theorem State.halt_encStatus : s.halt.encStatus = s.encStatus := rfl
@[simp] theorem State.halt_binOut : s.halt.binOut = s.binOut := rfl
@[simp] theorem State.halt_logOut : s.halt.logOut = s.logOut := rfl
@[simp] theorem State.halt_stream : s.halt.stream = s.stream := rfl
@[simp] theorem State.halt_reportRange : s.halt.reportRange = s.reportRange := rfl
@[simp] theorem State.halt_sourceText : s.halt.sourceText = s.sourceText := rfl
@[simp] theorem State.halt_activeUnit : s.halt.activeUnit = s.activeUnit := rfl

/-! ### `takeFault` -/

@[simp] theorem State.takeFault_pc (f : Fault) : (s.takeFault f).pc = s.pc := rfl
@[simp] theorem State.takeFault_mem (f : Fault) : (s.takeFault f).mem = s.mem := rfl
@[simp] theorem State.takeFault_trace (f : Fault) : (s.takeFault f).trace = s.trace := rfl
@[simp] theorem State.takeFault_dlog (f : Fault) : (s.takeFault f).dlog = s.dlog := rfl
@[simp] theorem State.takeFault_exuStatus (f : Fault) : (s.takeFault f).exuStatus = .faulted f := rfl
@[simp] theorem State.takeFault_encWords (f : Fault) : (s.takeFault f).encWords = s.encWords := rfl
@[simp] theorem State.takeFault_encLog (f : Fault) : (s.takeFault f).encLog = s.encLog := rfl
@[simp] theorem State.takeFault_encStatus (f : Fault) : (s.takeFault f).encStatus = s.encStatus := rfl
@[simp] theorem State.takeFault_binOut (f : Fault) : (s.takeFault f).binOut = s.binOut := rfl
@[simp] theorem State.takeFault_logOut (f : Fault) : (s.takeFault f).logOut = s.logOut := rfl
@[simp] theorem State.takeFault_stream (f : Fault) : (s.takeFault f).stream = s.stream := rfl
@[simp] theorem State.takeFault_reportRange (f : Fault) : (s.takeFault f).reportRange = s.reportRange := rfl
@[simp] theorem State.takeFault_sourceText (f : Fault) : (s.takeFault f).sourceText = s.sourceText := rfl
@[simp] theorem State.takeFault_activeUnit (f : Fault) : (s.takeFault f).activeUnit = s.activeUnit := rfl

/-! ### `appendEncoded` -/

@[simp] theorem State.appendEncoded_pc (w : Word) (r : AssemblyRecord) : (s.appendEncoded w r).pc = s.pc := rfl
@[simp] theorem State.appendEncoded_mem (w : Word) (r : AssemblyRecord) : (s.appendEncoded w r).mem = s.mem := rfl
@[simp] theorem State.appendEncoded_trace (w : Word) (r : AssemblyRecord) : (s.appendEncoded w r).trace = s.trace := rfl
@[simp] theorem State.appendEncoded_dlog (w : Word) (r : AssemblyRecord) : (s.appendEncoded w r).dlog = s.dlog := rfl
@[simp] theorem State.appendEncoded_exuStatus (w : Word) (r : AssemblyRecord) : (s.appendEncoded w r).exuStatus = s.exuStatus := rfl
@[simp] theorem State.appendEncoded_encWords (w : Word) (r : AssemblyRecord) : (s.appendEncoded w r).encWords = s.encWords ++ [w] := rfl
@[simp] theorem State.appendEncoded_encLog (w : Word) (r : AssemblyRecord) : (s.appendEncoded w r).encLog = s.encLog ++ [r] := rfl
@[simp] theorem State.appendEncoded_encStatus (w : Word) (r : AssemblyRecord) : (s.appendEncoded w r).encStatus = s.encStatus := rfl
@[simp] theorem State.appendEncoded_binOut (w : Word) (r : AssemblyRecord) : (s.appendEncoded w r).binOut = s.binOut := rfl
@[simp] theorem State.appendEncoded_logOut (w : Word) (r : AssemblyRecord) : (s.appendEncoded w r).logOut = s.logOut := rfl
@[simp] theorem State.appendEncoded_stream (w : Word) (r : AssemblyRecord) : (s.appendEncoded w r).stream = s.stream := rfl
@[simp] theorem State.appendEncoded_reportRange (w : Word) (r : AssemblyRecord) : (s.appendEncoded w r).reportRange = s.reportRange := rfl
@[simp] theorem State.appendEncoded_sourceText (w : Word) (r : AssemblyRecord) : (s.appendEncoded w r).sourceText = s.sourceText := rfl
@[simp] theorem State.appendEncoded_activeUnit (w : Word) (r : AssemblyRecord) : (s.appendEncoded w r).activeUnit = s.activeUnit := rfl

/-! ### `failEncoding` -/

@[simp] theorem State.failEncoding_pc (e : EncError) : (s.failEncoding e).pc = s.pc := rfl
@[simp] theorem State.failEncoding_mem (e : EncError) : (s.failEncoding e).mem = s.mem := rfl
@[simp] theorem State.failEncoding_trace (e : EncError) : (s.failEncoding e).trace = s.trace := rfl
@[simp] theorem State.failEncoding_dlog (e : EncError) : (s.failEncoding e).dlog = s.dlog := rfl
@[simp] theorem State.failEncoding_exuStatus (e : EncError) : (s.failEncoding e).exuStatus = s.exuStatus := rfl
@[simp] theorem State.failEncoding_encWords (e : EncError) : (s.failEncoding e).encWords = [] := rfl
@[simp] theorem State.failEncoding_encLog (e : EncError) : (s.failEncoding e).encLog = [] := rfl
@[simp] theorem State.failEncoding_encStatus (e : EncError) : (s.failEncoding e).encStatus = .failed e := rfl
@[simp] theorem State.failEncoding_binOut (e : EncError) : (s.failEncoding e).binOut = s.binOut := rfl
@[simp] theorem State.failEncoding_logOut (e : EncError) : (s.failEncoding e).logOut = s.logOut := rfl
@[simp] theorem State.failEncoding_stream (e : EncError) : (s.failEncoding e).stream = s.stream := rfl
@[simp] theorem State.failEncoding_reportRange (e : EncError) : (s.failEncoding e).reportRange = s.reportRange := rfl
@[simp] theorem State.failEncoding_sourceText (e : EncError) : (s.failEncoding e).sourceText = s.sourceText := rfl
@[simp] theorem State.failEncoding_activeUnit (e : EncError) : (s.failEncoding e).activeUnit = s.activeUnit := rfl

/-! ### `commitEncoding` -/

@[simp] theorem State.commitEncoding_pc : s.commitEncoding.pc = s.pc := rfl
@[simp] theorem State.commitEncoding_mem : s.commitEncoding.mem = s.mem := rfl
@[simp] theorem State.commitEncoding_trace : s.commitEncoding.trace = s.trace := rfl
@[simp] theorem State.commitEncoding_dlog : s.commitEncoding.dlog = s.dlog := rfl
@[simp] theorem State.commitEncoding_exuStatus : s.commitEncoding.exuStatus = s.exuStatus := rfl
@[simp] theorem State.commitEncoding_encWords : s.commitEncoding.encWords = s.encWords := rfl
@[simp] theorem State.commitEncoding_encLog : s.commitEncoding.encLog = s.encLog := rfl
@[simp] theorem State.commitEncoding_encStatus : s.commitEncoding.encStatus = .committed := rfl
@[simp] theorem State.commitEncoding_binOut : s.commitEncoding.binOut = some (s.encWords.flatMap fun w => listOfBytes (bytesOfWord w)) := rfl
@[simp] theorem State.commitEncoding_logOut : s.commitEncoding.logOut = some s.encLog := rfl
@[simp] theorem State.commitEncoding_stream : s.commitEncoding.stream = s.stream := rfl
@[simp] theorem State.commitEncoding_reportRange : s.commitEncoding.reportRange = s.reportRange := rfl
@[simp] theorem State.commitEncoding_sourceText : s.commitEncoding.sourceText = s.sourceText := rfl
@[simp] theorem State.commitEncoding_activeUnit : s.commitEncoding.activeUnit = s.activeUnit := rfl

/-! ### `setSourceText` -/

@[simp] theorem State.setSourceText_pc (ls : List SourceLine) : (s.setSourceText ls).pc = s.pc := rfl
@[simp] theorem State.setSourceText_mem (ls : List SourceLine) : (s.setSourceText ls).mem = s.mem := rfl
@[simp] theorem State.setSourceText_trace (ls : List SourceLine) : (s.setSourceText ls).trace = s.trace := rfl
@[simp] theorem State.setSourceText_dlog (ls : List SourceLine) : (s.setSourceText ls).dlog = s.dlog := rfl
@[simp] theorem State.setSourceText_exuStatus (ls : List SourceLine) : (s.setSourceText ls).exuStatus = s.exuStatus := rfl
@[simp] theorem State.setSourceText_encWords (ls : List SourceLine) : (s.setSourceText ls).encWords = s.encWords := rfl
@[simp] theorem State.setSourceText_encLog (ls : List SourceLine) : (s.setSourceText ls).encLog = s.encLog := rfl
@[simp] theorem State.setSourceText_encStatus (ls : List SourceLine) : (s.setSourceText ls).encStatus = s.encStatus := rfl
@[simp] theorem State.setSourceText_binOut (ls : List SourceLine) : (s.setSourceText ls).binOut = s.binOut := rfl
@[simp] theorem State.setSourceText_logOut (ls : List SourceLine) : (s.setSourceText ls).logOut = s.logOut := rfl
@[simp] theorem State.setSourceText_stream (ls : List SourceLine) : (s.setSourceText ls).stream = s.stream := rfl
@[simp] theorem State.setSourceText_reportRange (ls : List SourceLine) : (s.setSourceText ls).reportRange = s.reportRange := rfl
@[simp] theorem State.setSourceText_sourceText (ls : List SourceLine) : (s.setSourceText ls).sourceText = ls := rfl
@[simp] theorem State.setSourceText_activeUnit (ls : List SourceLine) : (s.setSourceText ls).activeUnit = s.activeUnit := rfl

/-! ### `encReset` -/

@[simp] theorem State.encReset_pc (ls : List SourceLine) : (s.encReset ls).pc = s.pc := rfl
@[simp] theorem State.encReset_mem (ls : List SourceLine) : (s.encReset ls).mem = s.mem := rfl
@[simp] theorem State.encReset_trace (ls : List SourceLine) : (s.encReset ls).trace = s.trace := rfl
@[simp] theorem State.encReset_dlog (ls : List SourceLine) : (s.encReset ls).dlog = s.dlog := rfl
@[simp] theorem State.encReset_exuStatus (ls : List SourceLine) : (s.encReset ls).exuStatus = s.exuStatus := rfl
@[simp] theorem State.encReset_encWords (ls : List SourceLine) : (s.encReset ls).encWords = [] := rfl
@[simp] theorem State.encReset_encLog (ls : List SourceLine) : (s.encReset ls).encLog = [] := rfl
@[simp] theorem State.encReset_encStatus (ls : List SourceLine) : (s.encReset ls).encStatus = .running := rfl
@[simp] theorem State.encReset_binOut (ls : List SourceLine) : (s.encReset ls).binOut = none := rfl
@[simp] theorem State.encReset_logOut (ls : List SourceLine) : (s.encReset ls).logOut = none := rfl
@[simp] theorem State.encReset_stream (ls : List SourceLine) : (s.encReset ls).stream = s.stream := rfl
@[simp] theorem State.encReset_reportRange (ls : List SourceLine) : (s.encReset ls).reportRange = s.reportRange := rfl
@[simp] theorem State.encReset_sourceText (ls : List SourceLine) : (s.encReset ls).sourceText = ls := rfl
@[simp] theorem State.encReset_activeUnit (ls : List SourceLine) : (s.encReset ls).activeUnit = .enc := rfl

/-! ### `exuReset` -/

@[simp] theorem State.exuReset_pc (bs : List Byte) (a z : Nat) : (s.exuReset bs a z).pc = 0 := rfl
@[simp] theorem State.exuReset_mem (bs : List Byte) (a z : Nat) : (s.exuReset bs a z).mem = [] := rfl
@[simp] theorem State.exuReset_trace (bs : List Byte) (a z : Nat) : (s.exuReset bs a z).trace = [] := rfl
@[simp] theorem State.exuReset_dlog (bs : List Byte) (a z : Nat) : (s.exuReset bs a z).dlog = [] := rfl
@[simp] theorem State.exuReset_exuStatus (bs : List Byte) (a z : Nat) : (s.exuReset bs a z).exuStatus = .running := rfl
@[simp] theorem State.exuReset_encWords (bs : List Byte) (a z : Nat) : (s.exuReset bs a z).encWords = s.encWords := rfl
@[simp] theorem State.exuReset_encLog (bs : List Byte) (a z : Nat) : (s.exuReset bs a z).encLog = s.encLog := rfl
@[simp] theorem State.exuReset_encStatus (bs : List Byte) (a z : Nat) : (s.exuReset bs a z).encStatus = s.encStatus := rfl
@[simp] theorem State.exuReset_binOut (bs : List Byte) (a z : Nat) : (s.exuReset bs a z).binOut = s.binOut := rfl
@[simp] theorem State.exuReset_logOut (bs : List Byte) (a z : Nat) : (s.exuReset bs a z).logOut = s.logOut := rfl
@[simp] theorem State.exuReset_stream (bs : List Byte) (a z : Nat) : (s.exuReset bs a z).stream = bs := rfl
@[simp] theorem State.exuReset_reportRange (bs : List Byte) (a z : Nat) : (s.exuReset bs a z).reportRange = (a, z) := rfl
@[simp] theorem State.exuReset_sourceText (bs : List Byte) (a z : Nat) : (s.exuReset bs a z).sourceText = s.sourceText := rfl
@[simp] theorem State.exuReset_activeUnit (bs : List Byte) (a z : Nat) : (s.exuReset bs a z).activeUnit = .exu := rfl

end Sys2Proof.Machine
end

