-- ==== Sys2Proof/Laws/Memory.lean ====
section
/-! SUPPORT. The laws of the data memory: read after write, the canonical form, and that equal contents are equal lists. -/

namespace Sys2Proof.Machine

@[simp] theorem Memory.read_nil (a : Nat) : Memory.read [] a = 0 := rfl

theorem Memory.read_cons (x u a : Nat) (m : Memory) :
    Memory.read ((x, u) :: m) a = if a = x then u else Memory.read m a := rfl

theorem Memory.wfFrom_cons (low x u : Nat) (m : Memory) :
    Memory.wfFrom low ((x, u) :: m) = true ↔
      low ≤ x ∧ x < 50 ∧ u ≠ 0 ∧ Memory.wfFrom (x + 1) m = true := by
  simp [Memory.wfFrom, and_assoc]

/-- The canonical form from a higher address is one from a lower address. -/
theorem Memory.wfFrom_mono {low low' : Nat} {m : Memory} (h : Memory.wfFrom low m = true) (hle : low' ≤ low) :
    Memory.wfFrom low' m = true := by
  cases m with
  | nil => rfl
  | cons p m =>
    obtain ⟨x, u⟩ := p
    rw [Memory.wfFrom_cons] at h ⊢
    exact ⟨by omega, h.2⟩

/-- Below its first address a canonical memory lists nothing. -/
theorem Memory.read_below {low a : Nat} {m : Memory} (h : Memory.wfFrom low m = true) (ha : a < low) :
    Memory.read m a = 0 := by
  induction m generalizing low with
  | nil => rfl
  | cons p m ih =>
    obtain ⟨x, u⟩ := p
    rw [Memory.wfFrom_cons] at h
    rw [Memory.read_cons, if_neg (by omega)]
    exact ih h.2.2.2 (by omega)

/-- Outside the 50 cells a canonical memory lists nothing. -/
theorem Memory.read_outside {m : Memory} (h : m.wf = true) {a : Nat} (ha : 50 ≤ a) : m.read a = 0 := by
  suffices ∀ low, Memory.wfFrom low m = true → m.read a = 0 from this 0 h
  induction m with
  | nil => intros; rfl
  | cons p m ih =>
    obtain ⟨x, u⟩ := p
    intro low hw
    rw [Memory.wfFrom_cons] at hw
    rw [Memory.read_cons, if_neg (by omega)]
    exact ih (Memory.wfFrom_mono hw.2.2.2 (Nat.zero_le _)) _ hw.2.2.2

/-- Reading the cell just written gives the value written. -/
theorem Memory.read_write_self_from {low : Nat} {m : Memory} (h : Memory.wfFrom low m = true) (a v : Nat) :
    (m.write a v).read a = v := by
  induction m generalizing low with
  | nil => by_cases hv : v = 0 <;> simp [Memory.write, Memory.read_cons, hv]
  | cons p m ih =>
    obtain ⟨x, u⟩ := p
    have hm := (Memory.wfFrom_cons ..).1 h
    simp only [Memory.write]
    split_ifs with h1 h2 h3 h4
    · rw [Memory.read_cons, if_neg (by omega), Memory.read_below hm.2.2.2 (by omega), h2]
    · rw [Memory.read_cons, if_pos rfl]
    · rw [Memory.read_below hm.2.2.2 (by omega), h4]
    · rw [Memory.read_cons, if_pos rfl]
    · rw [Memory.read_cons, if_neg h3]
      exact ih hm.2.2.2

theorem Memory.read_write_self {m : Memory} (h : m.wf = true) (a v : Nat) : (m.write a v).read a = v :=
  Memory.read_write_self_from h a v

/-- A write changes that cell only (R37). -/
theorem Memory.read_write_other (m : Memory) {a a' : Nat} (v : Nat) (h : a' ≠ a) :
    (m.write a v).read a' = m.read a' := by
  induction m with
  | nil => by_cases hv : v = 0 <;> simp [Memory.write, Memory.read_cons, hv, h]
  | cons p m ih =>
    obtain ⟨x, u⟩ := p
    simp only [Memory.write]
    split_ifs with h1 h2 h3 h4
    · rfl
    · rw [Memory.read_cons, if_neg h]
    · rw [Memory.read_cons, if_neg (by omega)]
    · rw [Memory.read_cons, Memory.read_cons, if_neg h, if_neg (by omega)]
    · rw [Memory.read_cons, Memory.read_cons, ih]

/-- A write to one of the 50 cells keeps the canonical form. -/
theorem Memory.write_wfFrom {low : Nat} {m : Memory} (h : Memory.wfFrom low m = true) {a : Nat} (v : Nat)
    (ha : a < 50) (hl : low ≤ a) : Memory.wfFrom low (m.write a v) = true := by
  induction m generalizing low with
  | nil => by_cases hv : v = 0 <;> simp [Memory.write, Memory.wfFrom, hv, ha, hl]
  | cons p m ih =>
    obtain ⟨x, u⟩ := p
    have hm := (Memory.wfFrom_cons ..).1 h
    simp only [Memory.write]
    split_ifs with h1 h2 h3 h4
    · exact h
    · exact (Memory.wfFrom_cons ..).2 ⟨hl, ha, h2, (Memory.wfFrom_cons ..).2 ⟨by omega, hm.2⟩⟩
    · exact Memory.wfFrom_mono hm.2.2.2 (by omega)
    · exact (Memory.wfFrom_cons ..).2 ⟨hl, ha, h4, h3 ▸ hm.2.2.2⟩
    · exact (Memory.wfFrom_cons ..).2 ⟨hm.1, hm.2.1, hm.2.2.1, ih hm.2.2.2 (by omega)⟩

theorem Memory.write_wf {m : Memory} (h : m.wf = true) {a : Nat} (v : Nat) (ha : a < 50) :
    (m.write a v).wf = true := Memory.write_wfFrom h v ha (Nat.zero_le _)

/-- Two canonical memories that read the same everywhere are the same list. -/
theorem Memory.ext_from {low : Nat} {m m' : Memory} (h : Memory.wfFrom low m = true)
    (h' : Memory.wfFrom low m' = true) (heq : ∀ a, m.read a = m'.read a) : m = m' := by
  induction m generalizing low m' with
  | nil =>
    cases m' with
    | nil => rfl
    | cons q m' =>
      obtain ⟨y, w⟩ := q
      have hm := (Memory.wfFrom_cons ..).1 h'
      have := heq y
      rw [Memory.read_cons, if_pos rfl, Memory.read_nil] at this
      exact absurd this.symm hm.2.2.1
  | cons p m ih =>
    obtain ⟨x, u⟩ := p
    have hm := (Memory.wfFrom_cons ..).1 h
    have hx := heq x
    rw [Memory.read_cons, if_pos rfl] at hx
    cases m' with
    | nil => exact absurd hx hm.2.2.1
    | cons q m' =>
      obtain ⟨y, w⟩ := q
      have hn := (Memory.wfFrom_cons ..).1 h'
      have hy := heq y
      rw [Memory.read_cons y w, if_pos rfl] at hy
      have hxy : x = y := by
        rcases Nat.lt_trichotomy x y with hlt | he | hlt
        · rw [Memory.read_cons, if_neg (by omega), Memory.read_below hn.2.2.2 (by omega)] at hx
          exact absurd hx hm.2.2.1
        · exact he
        · rw [Memory.read_cons, if_neg (by omega), Memory.read_below hm.2.2.2 (by omega)] at hy
          exact absurd hy.symm hn.2.2.1
      subst hxy
      rw [Memory.read_cons, if_pos rfl] at hx
      subst hx
      rw [ih hm.2.2.2 hn.2.2.2]
      intro a
      by_cases ha : a = x
      · rw [Memory.read_below hm.2.2.2 (by omega), Memory.read_below hn.2.2.2 (by omega)]
      · have := heq a
        rwa [Memory.read_cons, Memory.read_cons, if_neg ha, if_neg ha] at this

theorem Memory.ext_read {m m' : Memory} (h : m.wf = true) (h' : m'.wf = true)
    (heq : ∀ a, m.read a = m'.read a) : m = m' := Memory.ext_from h h' heq

end Sys2Proof.Machine
end

