-- ==== Sys2Proof/Laws/Ops.lean ====
section
/-! SUPPORT. What each shared operation and each meaning can do, said once; later proofs cite these and do not unfold. -/

namespace Sys2Proof.Machine

/-! ### Address checks and operand forms -/

theorem requireCell_inRange {a : Nat} (h : a < 50) (s : State) (k : Answer) : requireCell a s k = k := if_pos h

theorem requireCell_outOfRange {a : Nat} (h : 50 ≤ a) (s : State) (k : Answer) :
    requireCell a s k = .next (s.takeFault (.addressFault a)) := if_neg (Nat.not_lt.2 h)

theorem directCell_inRange {a : Nat} (h : a < 50) (s : State) (k : Nat → Answer) : directCell a s k = k a :=
  requireCell_inRange h s _

theorem directCell_outOfRange {a : Nat} (h : 50 ≤ a) (s : State) (k : Nat → Answer) :
    directCell a s k = .next (s.takeFault (.addressFault a)) := requireCell_outOfRange h s _

theorem indirectCell_inRange {a : Nat} {s : State} (h : a < 50) (hp : s.mem.read a < 50) (k : Nat → Answer) :
    indirectCell a s k = k (s.mem.read a) := by
  rw [indirectCell, requireCell_inRange h, requireCell_inRange hp]

theorem indirectCell_outOfRange {a : Nat} (h : 50 ≤ a) (s : State) (k : Nat → Answer) :
    indirectCell a s k = .next (s.takeFault (.addressFault a)) := requireCell_outOfRange h s _

theorem indirectCell_pointerOutOfRange {a : Nat} {s : State} (h : a < 50) (hp : 50 ≤ s.mem.read a)
    (k : Nat → Answer) : indirectCell a s k = .next (s.takeFault (.addressFault (s.mem.read a))) := by
  rw [indirectCell, requireCell_inRange h, requireCell_outOfRange hp]

/-- A direct operand either faults at its address or goes on with it. -/
theorem directCell_cases (a : Nat) (s : State) (k : Nat → Answer) :
    (50 ≤ a ∧ directCell a s k = .next (s.takeFault (.addressFault a))) ∨ (a < 50 ∧ directCell a s k = k a) := by
  rcases Nat.lt_or_ge a 50 with h | h
  · exact .inr ⟨h, directCell_inRange h s k⟩
  · exact .inl ⟨h, directCell_outOfRange h s k⟩

/-- An indirect operand faults at its own address, faults at the pointer it finds there, or goes on with the pointer. -/
theorem indirectCell_cases (a : Nat) (s : State) (k : Nat → Answer) :
    (50 ≤ a ∧ indirectCell a s k = .next (s.takeFault (.addressFault a))) ∨
    (a < 50 ∧ 50 ≤ s.mem.read a ∧ indirectCell a s k = .next (s.takeFault (.addressFault (s.mem.read a)))) ∨
    (a < 50 ∧ s.mem.read a < 50 ∧ indirectCell a s k = k (s.mem.read a)) := by
  rcases Nat.lt_or_ge a 50 with h | h
  · rcases Nat.lt_or_ge (s.mem.read a) 50 with hp | hp
    · exact .inr (.inr ⟨h, hp, indirectCell_inRange h hp k⟩)
    · exact .inr (.inl ⟨h, hp, indirectCell_pointerOutOfRange h hp k⟩)
  · exact .inl ⟨h, indirectCell_outOfRange h s k⟩

theorem divisorIsZero_iff (d : Nat) : divisorIsZero d = true ↔ d = 0 := by simp [divisorIsZero]

theorem fieldOverflows_iff (v n : Nat) : fieldOverflows v n = true ↔ 2 ^ n ≤ v := by simp [fieldOverflows]

/-! ### The four meanings -/

/-- Everything LOAD_CONST can do. -/
theorem execLoadConst_cases (b c : Nat) (s : State) :
    (50 ≤ b ∧ execLoadConst b c s = .next (s.takeFault (.addressFault b))) ∨
    (b < 50 ∧ execLoadConst b c s = .next ((s.writeCell b c).appendTrace (.loadConst b c))) :=
  directCell_cases b s _

/-- Everything READ_MEM can do. -/
theorem execReadMem_cases (b c : Nat) (s : State) :
    (50 ≤ c ∧ execReadMem b c s = .next (s.takeFault (.addressFault c))) ∨
    (c < 50 ∧ 50 ≤ s.mem.read c ∧ execReadMem b c s = .next (s.takeFault (.addressFault (s.mem.read c)))) ∨
    (c < 50 ∧ s.mem.read c < 50 ∧ 50 ≤ b ∧ execReadMem b c s = .next (s.takeFault (.addressFault b))) ∨
    (c < 50 ∧ s.mem.read c < 50 ∧ b < 50 ∧ execReadMem b c s =
      .next ((s.writeCell b (s.mem.read (s.mem.read c))).appendTrace
        (.readMem b c (s.mem.read c) (s.mem.read (s.mem.read c))))) := by
  rcases indirectCell_cases c s fun src => directCell b s fun dst =>
      .next ((s.writeCell dst (s.mem.read src)).appendTrace (.readMem b c src (s.mem.read src))) with h | h | ⟨h, hp, he⟩
  · exact .inl h
  · exact .inr (.inl h)
  · rcases directCell_cases b s fun dst => .next ((s.writeCell dst (s.mem.read (s.mem.read c))).appendTrace
        (.readMem b c (s.mem.read c) (s.mem.read (s.mem.read c)))) with ⟨hb, hd⟩ | ⟨hb, hd⟩
    · exact .inr (.inr (.inl ⟨h, hp, hb, he.trans hd⟩))
    · exact .inr (.inr (.inr ⟨h, hp, hb, he.trans hd⟩))

/-- Everything WRITE_MEM can do. -/
theorem execWriteMem_cases (b c : Nat) (s : State) :
    (50 ≤ c ∧ execWriteMem b c s = .next (s.takeFault (.addressFault c))) ∨
    (c < 50 ∧ 50 ≤ b ∧ execWriteMem b c s = .next (s.takeFault (.addressFault b))) ∨
    (c < 50 ∧ b < 50 ∧ execWriteMem b c s =
      .next ((s.writeCell b (s.mem.read c)).appendTrace (.writeMem b c (s.mem.read c)))) := by
  rcases directCell_cases c s fun src => directCell b s fun dst =>
      .next ((s.writeCell dst (s.mem.read src)).appendTrace (.writeMem b c (s.mem.read src))) with h | ⟨h, he⟩
  · exact .inl h
  · rcases directCell_cases b s fun dst =>
        .next ((s.writeCell dst (s.mem.read c)).appendTrace (.writeMem b c (s.mem.read c))) with ⟨hb, hd⟩ | ⟨hb, hd⟩
    · exact .inr (.inl ⟨h, hb, he.trans hd⟩)
    · exact .inr (.inr ⟨h, hb, he.trans hd⟩)

/-- Everything MOD can do. -/
theorem execMod_cases (b c : Nat) (s : State) :
    (50 ≤ c ∧ execMod b c s = .next (s.takeFault (.addressFault c))) ∨
    (c < 50 ∧ 50 ≤ b ∧ execMod b c s = .next (s.takeFault (.addressFault b))) ∨
    (c < 50 ∧ b < 50 ∧ s.mem.read c = 0 ∧ execMod b c s = .next (s.appendTrace (.modDivZero b c))) ∨
    (c < 50 ∧ b < 50 ∧ s.mem.read c ≠ 0 ∧ execMod b c s =
      .next ((s.writeCell b (s.mem.read b % s.mem.read c)).appendTrace
        (.mod b c (s.mem.read b) (s.mem.read c) (s.mem.read b % s.mem.read c)))) := by
  rcases Nat.lt_or_ge c 50 with hc | hc
  · rcases Nat.lt_or_ge b 50 with hb | hb
    · rcases Nat.eq_zero_or_pos (s.mem.read c) with hz | hz
      · refine .inr (.inr (.inl ⟨hc, hb, hz, ?_⟩))
        rw [execMod, directCell_inRange hc, directCell_inRange hb]
        simp [divisorIsZero, hz]
      · refine .inr (.inr (.inr ⟨hc, hb, by omega, ?_⟩))
        rw [execMod, directCell_inRange hc, directCell_inRange hb]
        simp [divisorIsZero, Nat.ne_of_gt hz]
    · exact .inr (.inl ⟨hc, hb, by rw [execMod, directCell_inRange hc, directCell_outOfRange hb]⟩)
  · exact .inl ⟨hc, by rw [execMod, directCell_outOfRange hc]⟩

/-- Everything an instruction can do: take an address fault, trace its event without a write, or write its one destination
cell and trace its event. It always answers a next state. A value written is OperandC at most, or a cell at most. -/
theorem exec_cases (i : Instr) (s : State) :
    (∃ a, 50 ≤ a ∧ exec i s = .next (s.takeFault (.addressFault a))) ∨
    (∃ e, TraceEvent.instr e = i ∧ e.written = none ∧ exec i s = .next (s.appendTrace e)) ∨
    (∃ v e, TraceEvent.instr e = i ∧ e.written = some (destination i, v) ∧ destination i < 50 ∧
      (v ≤ i.opC ∨ ∃ a, v ≤ s.mem.read a) ∧
      exec i s = .next ((s.writeCell (destination i) v).appendTrace e)) := by
  cases i with
  | loadConst b c =>
    rcases execLoadConst_cases b c s with ⟨h, he⟩ | ⟨h, he⟩
    · exact .inl ⟨_, h, he⟩
    · exact .inr (.inr ⟨_, _, rfl, rfl, h, .inl (Nat.le_refl _), he⟩)
  | readMem b c =>
    rcases execReadMem_cases b c s with ⟨h, he⟩ | ⟨_, h, he⟩ | ⟨_, _, h, he⟩ | ⟨_, _, h, he⟩
    · exact .inl ⟨_, h, he⟩
    · exact .inl ⟨_, h, he⟩
    · exact .inl ⟨_, h, he⟩
    · exact .inr (.inr ⟨_, _, rfl, rfl, h, .inr ⟨_, Nat.le_refl _⟩, he⟩)
  | writeMem b c =>
    rcases execWriteMem_cases b c s with ⟨h, he⟩ | ⟨_, h, he⟩ | ⟨_, h, he⟩
    · exact .inl ⟨_, h, he⟩
    · exact .inl ⟨_, h, he⟩
    · exact .inr (.inr ⟨_, _, rfl, rfl, h, .inr ⟨_, Nat.le_refl _⟩, he⟩)
  | mod b c =>
    rcases execMod_cases b c s with ⟨h, he⟩ | ⟨_, h, he⟩ | ⟨_, _, _, he⟩ | ⟨_, h, _, he⟩
    · exact .inl ⟨_, h, he⟩
    · exact .inl ⟨_, h, he⟩
    · exact .inr (.inl ⟨_, rfl, rfl, he⟩)
    · exact .inr (.inr ⟨_, _, rfl, rfl, h, .inr ⟨b, Nat.mod_le _ _⟩, he⟩)

/-- What an instruction does depends on the memory alone: in two states with one memory it faults, traces and writes alike. -/
theorem exec_congr_mem (i : Instr) {s s' : State} (h : s.mem = s'.mem) :
    (∃ a, exec i s = .next (s.takeFault (.addressFault a)) ∧ exec i s' = .next (s'.takeFault (.addressFault a))) ∨
    (∃ e, exec i s = .next (s.appendTrace e) ∧ exec i s' = .next (s'.appendTrace e)) ∨
    (∃ v e, exec i s = .next ((s.writeCell (destination i) v).appendTrace e) ∧
      exec i s' = .next ((s'.writeCell (destination i) v).appendTrace e)) := by
  have hr : ∀ a, s'.mem.read a = s.mem.read a := fun a => by rw [h]
  cases i with
  | loadConst b c =>
    have h2 := execLoadConst_cases b c s'
    rcases execLoadConst_cases b c s with ⟨hb, he⟩ | ⟨hb, he⟩ <;>
      rcases h2 with ⟨hb', he'⟩ | ⟨hb', he'⟩ <;> first | omega | skip
    · exact .inl ⟨_, he, he'⟩
    · exact .inr (.inr ⟨_, _, he, he'⟩)
  | readMem b c =>
    have h2 := execReadMem_cases b c s'
    simp only [hr] at h2
    rcases execReadMem_cases b c s with ⟨_, he⟩ | ⟨_, _, he⟩ | ⟨_, _, _, he⟩ | ⟨_, _, _, he⟩ <;>
      rcases h2 with ⟨_, he'⟩ | ⟨_, _, he'⟩ | ⟨_, _, _, he'⟩ | ⟨_, _, _, he'⟩ <;> first | omega | skip
    · exact .inl ⟨_, he, he'⟩
    · exact .inl ⟨_, he, he'⟩
    · exact .inl ⟨_, he, he'⟩
    · exact .inr (.inr ⟨_, _, he, he'⟩)
  | writeMem b c =>
    have h2 := execWriteMem_cases b c s'
    simp only [hr] at h2
    rcases execWriteMem_cases b c s with ⟨_, he⟩ | ⟨_, _, he⟩ | ⟨_, _, he⟩ <;>
      rcases h2 with ⟨_, he'⟩ | ⟨_, _, he'⟩ | ⟨_, _, he'⟩ <;> first | omega | skip
    · exact .inl ⟨_, he, he'⟩
    · exact .inl ⟨_, he, he'⟩
    · exact .inr (.inr ⟨_, _, he, he'⟩)
  | mod b c =>
    have h2 := execMod_cases b c s'
    simp only [hr] at h2
    rcases execMod_cases b c s with ⟨_, he⟩ | ⟨_, _, he⟩ | ⟨_, _, hz, he⟩ | ⟨_, _, hz, he⟩ <;>
      rcases h2 with ⟨_, he'⟩ | ⟨_, _, he'⟩ | ⟨_, _, hz', he'⟩ | ⟨_, _, hz', he'⟩ <;> first | omega | skip
    · exact .inl ⟨_, he, he'⟩
    · exact .inl ⟨_, he, he'⟩
    · exact .inr (.inl ⟨_, he, he'⟩)
    · exact .inr (.inr ⟨_, _, he, he'⟩)

end Sys2Proof.Machine
end

