-- ==== Sys2Proof/Laws/PerInstr.lean ====
section
/-! SUPPORT. Statements about every instruction as syntax, one lemma per constructor. -/

/-- The row of the opcode table an instruction belongs to leads back to it, by its opcode and by its text, and what ENC
can write DEC can deliver (R50, R51, R59). -/
def Sys2Proof.Laws.TableRow.Statement (i : Sys2Proof.Instr) : Prop :=
  Sys2Proof.mnemonicOfOpcode (Sys2Proof.opc i.mnemonic) = some i.mnemonic ∧
  Sys2Proof.mnemonicOfText i.mnemonic.text = some i.mnemonic ∧
  Sys2Proof.Instr.ofMnemonic i.mnemonic i.opB i.opC = i ∧
  (i.canonical = true → i.wf = true)

namespace Sys2Proof.Laws

theorem TableRow.of_instr (i : Instr) : TableRow.Statement i := by
  refine ⟨mnemonicOfOpcode_opc _, mnemonicOfText_text _, i.ofMnemonic_self, fun h => ?_⟩
  rw [Instr.canonical_iff] at h
  have : 2 ^ encWidthC i.mnemonic ≤ 2 ^ 14 := Nat.pow_le_pow_right (by decide) (encWidthC_le _)
  exact i.wf_iff.2 ⟨h.1, by omega⟩

theorem TableRow.loadConst (b c : Nat) : TableRow.Statement (.loadConst b c) := TableRow.of_instr _
theorem TableRow.readMem (b c : Nat) : TableRow.Statement (.readMem b c) := TableRow.of_instr _
theorem TableRow.writeMem (b c : Nat) : TableRow.Statement (.writeMem b c) := TableRow.of_instr _
theorem TableRow.mod (b c : Nat) : TableRow.Statement (.mod b c) := TableRow.of_instr _

end Sys2Proof.Laws
end

