-- ==== Sys2Proof/Laws/Step.lean ====
section
/-! SUPPORT. What one step can do, said once for each unit. -/

namespace Sys2Proof.Machine

/-! ### Fetch -/

theorem firstWord_eq_none {l : List Byte} : firstWord l = none ↔ l.length < 5 := by
  rcases l with _ | ⟨_, _ | ⟨_, _ | ⟨_, _ | ⟨_, _ | ⟨_, _⟩⟩⟩⟩⟩ <;> simp [firstWord]

theorem firstWord_listOfBytes (x : WordBytes) (rest : List Byte) : firstWord (listOfBytes x ++ rest) = some x := rfl

theorem fetch_eq_none {l : List Byte} {pc : Nat} : fetch l pc = none ↔ l.length - pc < 5 := by
  rw [fetch, firstWord_eq_none, List.length_drop]

/-- A fetch that finds a word finds it inside the stream. -/
theorem fetch_bound {l : List Byte} {pc : Nat} {x : WordBytes} (h : fetch l pc = some x) : pc + 5 ≤ l.length := by
  by_contra hc
  have : fetch l pc = none := fetch_eq_none.2 (by omega)
  simp [this] at h

/-! ### The executor's turn -/

theorem exuStep_terminal {s : State} (h : s.exuStatus ≠ .running) : exuStep s = .next s := by
  unfold exuStep
  split
  · rfl
  · rfl
  · next hr => exact absurd hr h

theorem exuStep_exhausted {s : State} (h : s.exuStatus = .running) (hf : fetch s.stream s.pc = none) :
    exuStep s = .next s.halt := by
  simp [exuStep, h, hf]

theorem exuStep_fetched {s : State} {x : WordBytes} (h : s.exuStatus = .running)
    (hf : fetch s.stream s.pc = some x) : exuStep s = runWord x s.advancePc := by
  simp [exuStep, h, hf]

theorem logAfter_faulted {x : WordBytes} {t : State} (h : isFaulted t.exuStatus = true) :
    logAfter x (.next t) = .next t := by
  cases hs : t.exuStatus <;> simp_all [logAfter, isFaulted]

theorem logAfter_running {x : WordBytes} {t : State} (h : isFaulted t.exuStatus = false) :
    logAfter x (.next t) = .next (t.appendDlog (decodeRecord x)) := by
  cases hs : t.exuStatus <;> simp_all [logAfter, isFaulted]

/-- Everything the executor's turn can do. It always answers a next state. -/
theorem exuStep_cases (s : State) :
    (s.exuStatus ≠ .running ∧ exuStep s = .next s) ∨
    (s.exuStatus = .running ∧ fetch s.stream s.pc = none ∧ exuStep s = .next s.halt) ∨
    (s.exuStatus = .running ∧ ∃ x, fetch s.stream s.pc = some x ∧
      ((∃ r, decodeInstr x = .error r ∧ exuStep s = .next (s.advancePc.appendDlog (decodeRecord x))) ∨
       (∃ i, decodeInstr x = .ok i ∧
         ((∃ a, 50 ≤ a ∧ exec i s.advancePc = .next (s.advancePc.takeFault (.addressFault a)) ∧
            exuStep s = .next (s.advancePc.takeFault (.addressFault a))) ∨
          (∃ e, TraceEvent.instr e = i ∧ e.written = none ∧ exec i s.advancePc = .next (s.advancePc.appendTrace e) ∧
            exuStep s = .next ((s.advancePc.appendTrace e).appendDlog (decodeRecord x))) ∨
          (∃ v e, TraceEvent.instr e = i ∧ e.written = some (destination i, v) ∧ destination i < 50 ∧
            (v ≤ i.opC ∨ ∃ a, v ≤ s.mem.read a) ∧
            exec i s.advancePc = .next ((s.advancePc.writeCell (destination i) v).appendTrace e) ∧
            exuStep s = .next (((s.advancePc.writeCell (destination i) v).appendTrace e).appendDlog
              (decodeRecord x))))))) := by
  by_cases hr : s.exuStatus = .running
  · cases hf : fetch s.stream s.pc with
    | none => exact .inr (.inl ⟨hr, rfl, exuStep_exhausted hr hf⟩)
    | some x =>
      refine .inr (.inr ⟨hr, x, rfl, ?_⟩)
      rw [exuStep_fetched hr hf]
      cases hd : decodeInstr x with
      | error r => exact .inl ⟨r, rfl, by simp [runWord, hd]⟩
      | ok i =>
        refine .inr ⟨i, rfl, ?_⟩
        have hw : runWord x s.advancePc = logAfter x (exec i s.advancePc) := by simp [runWord, hd]
        rcases exec_cases i s.advancePc with ⟨a, ha, he⟩ | ⟨e, hi, hn, he⟩ | ⟨v, e, hi, hn, hd, hv, he⟩
        · exact .inl ⟨a, ha, he, by rw [hw, he, logAfter_faulted rfl]⟩
        · exact .inr (.inl ⟨e, hi, hn, he, by rw [hw, he, logAfter_running (by simp [hr, isFaulted])]⟩)
        · exact .inr (.inr ⟨v, e, hi, hn, hd, hv, he, by rw [hw, he, logAfter_running (by simp [hr, isFaulted])]⟩)
  · exact .inl ⟨hr, exuStep_terminal hr⟩

/-! ### The encoder's turn -/

/-- No field list that ENC makes is outside PACK's domain (R69: "No caller in this hardware comes near the limit"). -/
theorem pack_fieldList (m : Mnemonic) (b c : Nat) :
    pack (fieldList m b c) = if b < 128 ∧ c < 2 ^ encWidthC m then
      .word (BitVec.ofNat 40 (accumulate (fieldList m b c))) else .fieldOverflow := by
  have hw : ¬ Config.wordBits < totalWidth (fieldList m b c) := by
    cases m <;> simp [fieldList, totalWidth, encWidthC, Config.opcWidth, Config.bWidth, Config.wordBits,
      Config.cEncWidthLoadConst, Config.cEncWidthReadMem, Config.cEncWidthWriteMem, Config.cEncWidthMod]
  have ho : anyOverflow (fieldList m b c) = true ↔ ¬ (b < 128 ∧ c < 2 ^ encWidthC m) := by
    have := opc_lt m
    simp [anyOverflow, fieldList, fieldOverflows_iff, Config.opcWidth, Config.bWidth]
    omega
  rw [pack, if_neg hw]
  by_cases h : b < 128 ∧ c < 2 ^ encWidthC m
  · rw [if_neg (by rw [ho]; simp [h]), if_pos h]
  · rw [if_pos (ho.2 h), if_neg h]

/-- ENC's function never answers a refusal. -/
theorem encodeWord_cases (token : String) (b c : Nat) :
    (∃ e, encodeWord token b c = .failed e) ∨
    (∃ m, token = m.text ∧ b < 128 ∧ c < 2 ^ encWidthC m ∧
      encodeWord token b c = .word m (BitVec.ofNat 40 (accumulate (fieldList m b c)))) := by
  cases hm : mnemonicOfText token with
  | none => exact .inl ⟨.unknownCommand token, by simp only [encodeWord, hm]⟩
  | some m =>
    by_cases h : b < 128 ∧ c < 2 ^ encWidthC m
    · refine .inr ⟨m, mnemonicOfText_eq_some.1 hm, h.1, h.2, ?_⟩
      simp only [encodeWord, hm, pack_fieldList, if_pos h]
    · exact .inl ⟨.fieldOverflow, by simp only [encodeWord, hm, pack_fieldList, if_neg h]⟩

theorem encStep_terminal {s : State} (h : s.encStatus ≠ .running) : encStep s = .next s := by
  unfold encStep
  split
  · rfl
  · rfl
  · next hr => exact absurd hr h

/-- Everything the encoder's turn can do. -/
theorem encStep_cases (s : State) :
    (s.encStatus ≠ .running ∧ encStep s = .next s) ∨
    (s.encStatus = .running ∧ s.sourceText = [] ∧ encStep s = .next s.commitEncoding) ∨
    (s.encStatus = .running ∧ ∃ text rest, s.sourceText = .malformed text :: rest ∧
      encStep s = .refused (.malformedLine text)) ∨
    (s.encStatus = .running ∧ ∃ token b c rest, s.sourceText = .instr token b c :: rest ∧
      ((∃ e, encodeWord token b c = .failed e ∧ encStep s = .next ((s.setSourceText rest).failEncoding e)) ∨
       (∃ m, token = m.text ∧ b < 128 ∧ c < 2 ^ encWidthC m ∧
         encStep s = .next ((s.setSourceText rest).appendEncoded
           (BitVec.ofNat 40 (accumulate (fieldList m b c)))
           (assemblyRecord m token b c (BitVec.ofNat 40 (accumulate (fieldList m b c)))))))) := by
  by_cases hr : s.encStatus = .running
  · cases ht : s.sourceText with
    | nil => exact .inr (.inl ⟨hr, rfl, by simp [encStep, encEnd, hr, ht]⟩)
    | cons l rest =>
      cases l with
      | malformed text => exact .inr (.inr (.inl ⟨hr, text, rest, rfl, by simp [encStep, hr, ht]⟩))
      | instr token b c =>
        refine .inr (.inr (.inr ⟨hr, token, b, c, rest, rfl, ?_⟩))
        have hs : encStep s = encLine token b c (s.setSourceText rest) := by simp [encStep, hr, ht]
        rcases encodeWord_cases token b c with ⟨e, he⟩ | ⟨m, htok, hb, hc, he⟩
        · exact .inl ⟨e, he, by simp [hs, encLine, hr, he]⟩
        · exact .inr ⟨m, htok, hb, hc, by simp [hs, encLine, hr, he]⟩
  · exact .inl ⟨hr, encStep_terminal hr⟩

theorem step_enc {s : State} (h : s.activeUnit = .enc) : step s = encStep s := by simp [step, h]

theorem step_exu {s : State} (h : s.activeUnit = .exu) : step s = exuStep s := by simp [step, h]

/-! ### Runs of several steps -/

/-- A run of one step more is the step and then the rest, or the stop where the step stops. -/
theorem run_unfold (k : Nat) (s : State) :
    Sys2Proof.core.run (k + 1) s =
      match step s with
      | .next t => Sys2Proof.core.run k t
      | .fault r => .fault r
      | .refused r => .refused r := by
  have h : ∀ (M : Host.Core) (u : M.State), M.run (k + 1) u =
      match M.step u with
      | .next t => M.run k t
      | .fault r => .fault r
      | .refused r => .refused r := fun _ _ => rfl
  exact (h Sys2Proof.core s).trans (by cases h : step s <;> (have h' : Sys2Proof.core.step s = _ := h; rw [h']))

theorem run_succ {s t : State} (h : step s = .next t) (k : Nat) :
    Sys2Proof.core.run (k + 1) s = Sys2Proof.core.run k t := by
  rw [run_unfold, h]

/-- A state that its step leaves alone is left alone by any number of steps. -/
theorem run_stays {s : State} (h : step s = .next s) (k : Nat) : Sys2Proof.core.run k s = .next s := by
  induction k with
  | zero => rfl
  | succ k ih => rw [run_succ h, ih]

/-- What holds before a run and is kept by every step holds after it. -/
theorem run_keeps {P : State → Prop} (hstep : ∀ s t, P s → step s = .next t → P t) {s t : State} {k : Nat}
    (hs : P s) (h : Sys2Proof.core.run k s = .next t) : P t := by
  induction k generalizing s with
  | zero => cases h; exact hs
  | succ k ih =>
    rw [run_unfold] at h
    rcases hst : step s with u | r | r <;> rw [hst] at h
    · exact ih (hstep s u hs hst) h
    · cases h
    · cases h

end Sys2Proof.Machine
end

