-- ==== Sys2Proof/Tests/Slice0.lean ====
section
/-! SUPPORT. Tests. Expected values come from the encodings of spec/30_encoding.md, written out as bytes, and from the vectors of
spec/95_test_vectors.md (named S, PK, E, EF, ER, K, X as there). After them one witness for every obligation that has
hypotheses, at the boundary values of each clause. -/

namespace Sys2Proof.Tests

open Sys2Proof Sys2Proof.Machine

/-! ### Helpers -/

/-- The next state an answer gives, where it gives one. -/
def nextOf : Answer → Option State
  | .next t => some t
  | .fault _ => none
  | .refused _ => none

/-- A running execution over a stream, from a given memory. -/
def exuAt (stream : List Byte) (m : Memory) : State := { State.reset with stream := stream, mem := m }

/-- A running encoding with a given text. -/
def encAt (text : List SourceLine) : State := State.reset.encReset text

/-- The instruction in a result of the decoder, where there is one. -/
def instrOf : Except DecodeReject Instr → Option Instr
  | .ok i => some i
  | .error _ => none

def w_F9420E0C00 : WordBytes := ⟨0xF9, 0x42, 0x0E, 0x0C, 0x00⟩

/-! ### WellFormed: one ill-formed term for each check of each constructor (R47) -/

theorem test_wf_loadConst_operandB : Instr.wf (.loadConst 128 0) = false := by decide
theorem test_wf_loadConst_operandC : Instr.wf (.loadConst 0 16384) = false := by decide
theorem test_wf_readMem_operandB : Instr.wf (.readMem 128 0) = false := by decide
theorem test_wf_readMem_operandC : Instr.wf (.readMem 0 16384) = false := by decide
theorem test_wf_writeMem_operandB : Instr.wf (.writeMem 128 0) = false := by decide
theorem test_wf_writeMem_operandC : Instr.wf (.writeMem 0 16384) = false := by decide
theorem test_wf_mod_operandB : Instr.wf (.mod 128 0) = false := by decide
theorem test_wf_mod_operandC : Instr.wf (.mod 0 16384) = false := by decide

/-! ### Decoding, from words written out bit by bit: ignored, OperandC, OperandB, opcode (R47, R48) -/

theorem test_decode_loadConst : instrOf (decodeWord
    (0b000000000000#12 ++ 0b11000000111001#14 ++ 0b0000101#7 ++ 0b1111001#7)) = some (.loadConst 5 12345) := by decide
theorem test_decode_readMem : instrOf (decodeWord
    (0b000000000000#12 ++ 0b00000000000010#14 ++ 0b0000011#7 ++ 0b0010010#7)) = some (.readMem 3 2) := by decide
theorem test_decode_writeMem : instrOf (decodeWord
    (0b000000000000#12 ++ 0b00000100101100#14 ++ 0b0000011#7 ++ 0b0101100#7)) = some (.writeMem 3 300) := by decide
theorem test_decode_mod : instrOf (decodeWord
    (0b000000000000#12 ++ 0b00000000000110#14 ++ 0b0000101#7 ++ 0b0000100#7)) = some (.mod 5 6) := by decide

/-- K5 and K6: the fixed 14-bit read of OperandC. -/
theorem test_decode_fixed_width :
    decode ⟨0x12, 0x81, 0x20, 0x00, 0x00⟩ = ⟨18, 2, 130, true⟩ ∧
    decode ⟨0x12, 0x80, 0xE0, 0x0F, 0x00⟩ = ⟨18, 0, 16258, true⟩ := by decide
/-- K7, K9, K10: bits 39 to 28 are ignored. -/
theorem test_decode_ignored_bits :
    decode ⟨0x79, 0x00, 0x00, 0xF0, 0xFF⟩ = ⟨121, 0, 0, true⟩ ∧
    decode ⟨0x92, 0x81, 0x00, 0x10, 0x00⟩ = ⟨18, 3, 2, true⟩ ∧
    decode ⟨0x92, 0x81, 0x00, 0x00, 0x01⟩ = ⟨18, 3, 2, true⟩ := by decide
/-- K4, K11, K12: an opcode that is not defined, the low bit of B, the low bit of C. -/
theorem test_decode_unknown :
    decode ⟨0xFF, 0xFF, 0xFF, 0xFF, 0xFF⟩ = ⟨127, 127, 16383, false⟩ ∧
    decode ⟨0x80, 0x00, 0x00, 0x00, 0x00⟩ = ⟨0, 1, 0, false⟩ ∧
    decode ⟨0x00, 0x40, 0x00, 0x00, 0x00⟩ = ⟨0, 0, 1, false⟩ := by decide
/-- The table's numbering: bit 0 is the least significant bit of the first byte. -/
theorem test_decodeTableWord :
    decodeTableWord 40 0x000C0E42F9 = some (.loadConst 5 12345) ∧ decodeTableWord 40 0x0000008192 = some (.readMem 3 2) ∧
    decodeTableWord 40 0x00000143AC = some (.writeMem 7 5) ∧ decodeTableWord 40 0x0000018284 = some (.mod 5 6) ∧
    decodeTableWord 8 0xAC79 = some (.loadConst 0 0) ∧ decodeTableWord 40 0x7F = none := by decide
/-- E2, E6, E9, E13: the words of the largest operands. -/
theorem test_encode_largest :
    encode (.loadConst 127 16383) = 0x000FFFFFF9#40 ∧ encode (.readMem 127 127) = 0x00001FFF92#40 ∧
    encode (.writeMem 127 511) = 0x00007FFFAC#40 ∧ encode (.mod 127 127) = 0x00001FFF84#40 := by decide

/-! ### PACK and ENC -/

/-- R71 (a), (d), (f) and R72. -/
theorem test_pack_words :
    pack [] = .word 0 ∧ pack [⟨2 ^ 40 - 1, 40⟩] = .word 0xFFFFFFFFFF#40 ∧
    pack [⟨5, 3⟩, ⟨1, 1⟩] = .word 13 ∧ pack [⟨13, 4⟩] = .word 13 ∧
    pack [⟨121, 7⟩, ⟨5, 7⟩, ⟨12345, 14⟩] = .word 0x000C0E42F9#40 := by decide
/-- R71 (b) and R69. -/
theorem test_pack_fails :
    pack [⟨1, 0⟩] = .fieldOverflow ∧ pack [⟨0, 41⟩] = .refused (.fieldListTooWide 41) := by decide
/-- E10 and E14. -/
theorem test_encodeWord :
    encodeWord "WRITE_MEM" 3 300 = .word .writeMem 4915628 ∧ encodeWord "MOD" 5 6 = .word .mod 98948 := by decide
/-- EF1 to EF6. -/
theorem test_encodeWord_overflow :
    encodeWord "LOAD_CONST" 128 0 = .failed .fieldOverflow ∧ encodeWord "LOAD_CONST" 0 16384 = .failed .fieldOverflow ∧
    encodeWord "READ_MEM" 0 128 = .failed .fieldOverflow ∧ encodeWord "WRITE_MEM" 0 512 = .failed .fieldOverflow ∧
    encodeWord "MOD" 0 128 = .failed .fieldOverflow ∧ encodeWord "MOD" 128 0 = .failed .fieldOverflow := by decide
/-- EF8 and EF9. -/
theorem test_encodeWord_unknown :
    encodeWord "FOO" 1 99999 = .failed (.unknownCommand "FOO") ∧
    encodeWord "load_const" 1 1 = .failed (.unknownCommand "load_const") := by decide
/-- ER2, its first turn. -/
theorem test_encoder_line : nextOf (step (encAt [.instr "LOAD_CONST" 5 12345])) =
    some { encAt [] with
      encWords := [202261241], encLog := [⟨121, "LOAD_CONST", 5, 12345, w_F9420E0C00⟩] } := by decide
/-- ER4. -/
theorem test_encoder_failure : nextOf (step (encAt [.instr "WRITE_MEM" 0 512])) =
    some { encAt [] with encStatus := .failed .fieldOverflow } := by decide

/-! ### One step of each instruction, from its bytes -/

/-- X2. -/
theorem test_loadConst_last_cell : nextOf (step (exuAt [0xF9, 0xD8, 0xFF, 0x0F, 0x00] [])) =
    some { exuAt [0xF9, 0xD8, 0xFF, 0x0F, 0x00] [(49, 16383)] with
      pc := 5, trace := [.loadConst 49 16383], dlog := [⟨⟨0xF9, 0xD8, 0xFF, 0x0F, 0x00⟩, 121, 49, 16383⟩] } := by decide
/-- X3. -/
theorem test_loadConst_fault : nextOf (step (exuAt [0x79, 0x5E, 0x00, 0x00, 0x00] [])) =
    some { exuAt [0x79, 0x5E, 0x00, 0x00, 0x00] [] with pc := 5, exuStatus := .faulted (.addressFault 60) } := by decide
/-- X5. -/
theorem test_readMem : nextOf (step (exuAt [0x12, 0x85, 0x00, 0x00, 0x00] [(2, 7), (7, 4242)])) =
    some { exuAt [0x12, 0x85, 0x00, 0x00, 0x00] [(2, 7), (7, 4242), (10, 4242)] with
      pc := 5, trace := [.readMem 10 2 7 4242], dlog := [⟨⟨0x12, 0x85, 0x00, 0x00, 0x00⟩, 18, 10, 2⟩] } := by decide
/-- X8. -/
theorem test_readMem_pointer_fault : nextOf (step (exuAt [0x92, 0x0A, 0x05, 0x00, 0x00] [(20, 50)])) =
    some { exuAt [0x92, 0x0A, 0x05, 0x00, 0x00] [(20, 50)] with
      pc := 5, exuStatus := .faulted (.addressFault 50) } := by decide
/-- X11. -/
theorem test_writeMem : nextOf (step (exuAt [0xAC, 0x81, 0x02, 0x00, 0x00] [(10, 4242)])) =
    some { exuAt [0xAC, 0x81, 0x02, 0x00, 0x00] [(3, 4242), (10, 4242)] with
      pc := 5, trace := [.writeMem 3 10 4242], dlog := [⟨⟨0xAC, 0x81, 0x02, 0x00, 0x00⟩, 44, 3, 10⟩] } := by decide
/-- X14. -/
theorem test_writeMem_fault : nextOf (step (exuAt [0x2C, 0x1E, 0x00, 0x00, 0x00] [])) =
    some { exuAt [0x2C, 0x1E, 0x00, 0x00, 0x00] [] with pc := 5, exuStatus := .faulted (.addressFault 60) } := by decide
/-- X21. -/
theorem test_mod : nextOf (step (exuAt [0x84, 0x97, 0x0B, 0x00, 0x00] [(46, 16382), (47, 16383)])) =
    some { exuAt [0x84, 0x97, 0x0B, 0x00, 0x00] [(46, 16382), (47, 1)] with
      pc := 5, trace := [.mod 47 46 16383 16382 1], dlog := [⟨⟨0x84, 0x97, 0x0B, 0x00, 0x00⟩, 4, 47, 46⟩] } := by decide
/-- X16. -/
theorem test_mod_by_zero : nextOf (step (exuAt [0x84, 0x82, 0x01, 0x00, 0x00] [(5, 10)])) =
    some { exuAt [0x84, 0x82, 0x01, 0x00, 0x00] [(5, 10)] with
      pc := 5, trace := [.modDivZero 5 6], dlog := [⟨⟨0x84, 0x82, 0x01, 0x00, 0x00⟩, 4, 5, 6⟩] } := by decide
/-- X24. -/
theorem test_unrecognised : nextOf (step (exuAt [0x80, 0xFF, 0xFF, 0x0F, 0x00] [])) =
    some { exuAt [0x80, 0xFF, 0xFF, 0x0F, 0x00] [] with
      pc := 5, dlog := [⟨⟨0x80, 0xFF, 0xFF, 0x0F, 0x00⟩, 0, 127, 16383⟩] } := by decide
/-- X4 and X17: writing 0 removes the cell's entry. -/
theorem test_write_zero : Memory.write [(6, 3)] 6 0 = [] ∧ Memory.write [(5, 9)] 5 0 = [] := by decide
/-- S3: the one text the source gives. -/
theorem test_trace_text : (TraceEvent.loadConst 5 12345).text = some "LOAD_CONST: R5 <- 12345" := by decide
/-- The host's door: after reset the very next step runs the word. -/
theorem test_withFetchWord : (nextOf (step (State.reset.withFetchWord 40 0x000C0E42F9))).map (·.mem) =
    some [(5, 12345)] := by decide
theorem test_reset_memory : State.reset.mem.wf = true := by decide
/-- PR1: the slices the vector gives. -/
theorem test_memorySlice : memorySlice [(5, 1), (6, 3)] 5 7 = [1, 3] ∧ memorySlice [(5, 1), (6, 3)] 5 5 = [] := by decide

/-! ### Witnesses: the hypotheses of each obligation are met -/

/-- A program in progress: `LOAD_CONST 5 10` done, `MOD 5 5` next, then two bytes that are no word. -/
def midRun : State :=
  { exuAt [0xF9, 0x82, 0x02, 0x00, 0x00, 0x84, 0x42, 0x01, 0x00, 0x00, 0xF9, 0x42] [(5, 10)] with
    pc := 5, trace := [.loadConst 5 10], dlog := [⟨⟨0xF9, 0x82, 0x02, 0x00, 0x00⟩, 121, 5, 10⟩] }

/-- An encoding in progress: `LOAD_CONST 1 1` done, the end of the text next. -/
def midEncoding : State :=
  { encAt [] with
    encWords := [16633], encLog := [⟨121, "LOAD_CONST", 1, 1, ⟨0xF9, 0x40, 0x00, 0x00, 0x00⟩⟩] }

theorem witness_LoadConst : (exuAt [] [(49, 1)]).mem.wf = true ∧ 49 < 50 ∧ 50 ≤ 50 := by decide
theorem witness_ReadMem : (exuAt [] [(0, 49), (1, 50)]).mem.wf = true ∧
    (49 < 50 ∧ (exuAt [] [(0, 49), (1, 50)]).mem.read 49 < 50) ∧
    (0 < 50 ∧ (exuAt [] [(0, 49), (1, 50)]).mem.read 0 = 49) ∧
    (1 < 50 ∧ 50 ≤ (exuAt [] [(0, 49), (1, 50)]).mem.read 1) ∧ 50 ≤ 50 := by decide
theorem witness_WriteMem : (exuAt [] [(49, 7)]).mem.wf = true ∧ 49 < 50 ∧ 50 ≤ 50 := by decide
theorem witness_Mod : (exuAt [] [(49, 16383)]).mem.wf = true ∧ (exuAt [] [(49, 16383)]).mem.read 49 ≠ 0 ∧
    49 < 50 ∧ 50 ≤ 50 := by decide
theorem witness_ModByZero : (exuAt [] [(0, 7)]).mem.read 49 = 0 ∧ 49 < 50 ∧
    (exuAt [] [(0, 7)]).mem.read 50 = 0 ∧ 50 ≤ 50 := by decide
theorem witness_RepeatedAddresses : (exuAt [] [(0, 49), (49, 7)]).mem.wf = true ∧ 49 < 50 ∧ 0 < 50 ∧
    (exuAt [] [(0, 49), (49, 7)]).mem.read 49 ≠ 0 ∧ (exuAt [] [(0, 49), (49, 7)]).mem.read 0 = 49 := by decide
theorem witness_FirstOffending :
    firstOffending (.readMem 50 49) (exuAt [] []) = some 50 ∧
    firstOffending (.readMem 60 0) (exuAt [] [(0, 51)]) = some 51 ∧
    (∀ a ∈ usedAddresses (.mod 49 0) (exuAt [] []), a < 50) := by decide
theorem witness_Fetch : 0 + 5 ≤ ([1, 2, 3, 4, 5] : List Byte).length ∧ ([1, 2, 3, 4, 5] : List Byte).length - 1 < 5 := by
  decide
/-- A word that completes; one that faults is in `witness_FaultFreezes`. -/
theorem witness_StepRuns :
    midRun.activeUnit = .exu ∧ midRun.exuStatus = .running ∧
    fetch midRun.stream midRun.pc = some ⟨0x84, 0x42, 0x01, 0x00, 0x00⟩ ∧
    instrOf (decodeInstr ⟨0x84, 0x42, 0x01, 0x00, 0x00⟩) = some (.mod 5 5) ∧
    (nextOf (exec (.mod 5 5) { midRun with pc := midRun.pc + 5 })).isSome = true := by decide
theorem witness_Unrecognised :
    (exuAt [0x80, 0xFF, 0xFF, 0x0F, 0x00] []).activeUnit = .exu ∧
    (exuAt [0x80, 0xFF, 0xFF, 0x0F, 0x00] []).exuStatus = .running ∧
    fetch [0x80, 0xFF, 0xFF, 0x0F, 0x00] 0 = some ⟨0x80, 0xFF, 0xFF, 0x0F, 0x00⟩ ∧
    (wordOfBytes ⟨0x80, 0xFF, 0xFF, 0x0F, 0x00⟩).toNat % 128 ∉ [121, 18, 44, 4] := by decide
theorem witness_PlacedWord : 4 < midRun.pc ∧ 4 < midRun.stream.length := by decide
/-- Four bytes left halt the run; five do not. -/
theorem witness_ExhaustedStream :
    (exuAt [1, 2, 3, 4] []).activeUnit = .exu ∧ (exuAt [1, 2, 3, 4] []).exuStatus = .running ∧
    (exuAt [1, 2, 3, 4] []).stream.length - (exuAt [1, 2, 3, 4] []).pc < 5 ∧
    (nextOf (step (exuAt [1, 2, 3, 4] []))).map (·.exuStatus) = some .halted ∧
    (nextOf (step (exuAt [1, 2, 3, 4, 5] []))).map (·.exuStatus) = some .running := by decide
theorem witness_FaultFreezes :
    (exuAt [0x79, 0x5E, 0x00, 0x00, 0x00] []).activeUnit = .exu ∧
    (exuAt [0x79, 0x5E, 0x00, 0x00, 0x00] []).exuStatus = .running ∧
    fetch [0x79, 0x5E, 0x00, 0x00, 0x00] 0 = some ⟨0x79, 0x5E, 0x00, 0x00, 0x00⟩ ∧
    instrOf (decodeInstr ⟨0x79, 0x5E, 0x00, 0x00, 0x00⟩) = some (.loadConst 60 1) ∧
    firstOffending (.loadConst 60 1) (exuAt [0x79, 0x5E, 0x00, 0x00, 0x00] []) = some 60 := by decide
theorem witness_OnlyTheFetch :
    ((nextOf (step midRun)).isSome = true ∧ midRun.pc + 5 ≤ midRun.stream.length) ∧
    ((nextOf (step (exuAt [1, 2, 3, 4] []))).isSome = true ∧ (exuAt [1, 2, 3, 4] []).stream.length < 0 + 5) ∧
    ((nextOf (step midEncoding)).isSome = true ∧ midEncoding.activeUnit = .enc) := by decide
theorem witness_Terminal :
    (State.reset.halt.activeUnit = .exu ∧ State.reset.halt.exuStatus ≠ .running) ∧
    (midEncoding.commitEncoding.activeUnit = .enc ∧ midEncoding.commitEncoding.encStatus ≠ .running) := by decide
theorem witness_Units :
    ((nextOf (step midRun)).isSome = true ∧ midRun.activeUnit = .exu) ∧
    ((nextOf (step midEncoding)).isSome = true ∧ midEncoding.activeUnit = .enc) := by decide

theorem witness_PcInv : PcInv midRun ∧ (nextOf (step midRun)).isSome = true :=
  ⟨⟨by decide, by decide, fun h => by cases h⟩, by decide⟩
theorem midRun_read (a : Nat) : midRun.mem.read a = if a = 5 then 10 else 0 := rfl
theorem witness_CellsInv : CellsInv midRun ∧ (nextOf (step midRun)).isSome = true :=
  ⟨⟨by decide, fun a => by rw [midRun_read]; split <;> omega⟩, by decide⟩
theorem witness_MemoryInv : MemoryInv midRun ∧ (nextOf (step midRun)).isSome = true :=
  ⟨⟨by decide, fun _ => rfl⟩, by decide⟩
theorem witness_DecodeLogInv : DecodeLogInv midRun ∧ (nextOf (step midRun)).isSome = true := by
  refine ⟨⟨by decide, fun k r h => ?_⟩, by decide⟩
  match k, h with
  | 0, h => cases h; decide
  | k + 1, h => simp [midRun] at h
theorem witness_TraceInv : TraceInv midRun ∧ (nextOf (step midRun)).isSome = true := by
  refine ⟨?_, by decide⟩
  unfold TraceInv
  decide
theorem midEncoding_inv : EncoderInv midEncoding := by
  refine ⟨by decide, fun k w h => ?_, ⟨rfl, rfl⟩⟩
  match k, h with
  | 0, h => cases h; exact ⟨.loadConst 1 1, by decide, by decide, by decide⟩
  | k + 1, h => simp [midEncoding] at h
theorem witness_EncoderInv : EncoderInv midEncoding ∧ (nextOf (step midEncoding)).isSome = true :=
  ⟨midEncoding_inv, by decide⟩

/-- A halted run, for the clause of EveryExecutionRunEnds about one. -/
theorem witness_RunEnds :
    (nextOf (Sys2Proof.core.run (4 / 5 + 1) (midRun.exuReset [1, 2, 3, 4] 0 50))).map (·.exuStatus) = some .halted := by
  decide
theorem witness_DependsOnStream :
    (nextOf (Sys2Proof.core.run 2 (midRun.exuReset midRun.stream 0 50))).isSome = true ∧
    (nextOf (Sys2Proof.core.run 2 (State.reset.exuReset midRun.stream 5 7))).isSome = true := by decide
/-- The boundaries of the report range: both ends of the memory, the empty slice at its end, one past it, and a range upside down. -/
theorem witness_Result :
    State.reset.halt.exuStatus = .halted ∧ (0 ≤ 50 ∧ 50 ≤ 50) ∧ (0 < 1 ∨ 50 < 0) ∧ (51 < 0 ∨ 50 < 51) ∧
    State.reset.exuStatus ≠ .halted := by decide
theorem witness_IgnoredBits :
    (0x0000008192#40).toNat % 2 ^ 28 = (0xFFF0008192#40).toNat % 2 ^ 28 ∧
    (nextOf (step (midRun.placeWord 0x0000008192#40))).isSome = true ∧
    (nextOf (step (midRun.placeWord 0xFFF0008192#40))).isSome = true := by decide
/-- X10: bit 21 set; the smallest OperandC that ENC cannot write. -/
theorem witness_NonCanonical :
    (exuAt [0x12, 0x01, 0x20, 0x00, 0x00] []).activeUnit = .exu ∧
    (exuAt [0x12, 0x01, 0x20, 0x00, 0x00] []).exuStatus = .running ∧
    fetch [0x12, 0x01, 0x20, 0x00, 0x00] 0 = some ⟨0x12, 0x01, 0x20, 0x00, 0x00⟩ ∧
    instrOf (decodeInstr ⟨0x12, 0x01, 0x20, 0x00, 0x00⟩) = some (.readMem 2 128) ∧
    Instr.canonical (.readMem 2 128) = false ∧ Instr.canonical (.readMem 2 127) = true := by decide
theorem witness_FirstByte : (decode ⟨0xF9, 0x42, 0x0E, 0x0C, 0x00⟩).known = true := by decide
theorem witness_TableMatch :
    0x0010008192#40 &&& 0x000000007F#40 = tableMatch .readMem ∧
    (∀ m : Mnemonic, 0x7F#40 &&& 0x000000007F#40 ≠ tableMatch m) :=
  ⟨by decide, fun m => by cases m <;> decide⟩
theorem witness_DecodeInverts : Instr.wf (.mod 127 16383) = true ∧ Instr.wf (.loadConst 0 0) = true := by decide
theorem witness_DecodedWellFormed : instrOf (decodeWord 0xFFFFFFFF84#40) = some (.mod 127 16383) := by decide
theorem witness_PackOverflow :
    40 < totalWidth [⟨0, 41⟩] ∧ totalWidth [⟨128, 7⟩, ⟨0, 33⟩] ≤ 40 ∧ 2 ^ 7 ≤ 128 := by decide
theorem witness_PackPlaces :
    totalWidth [⟨127, 7⟩, ⟨0, 0⟩, ⟨2 ^ 33 - 1, 33⟩] ≤ 40 ∧
    (∀ f ∈ [(⟨127, 7⟩ : PackField), ⟨0, 0⟩, ⟨2 ^ 33 - 1, 33⟩], f.value < 2 ^ f.width) := by decide
theorem witness_PackInjective :
    [(⟨5, 3⟩ : PackField), ⟨1, 1⟩].map (·.width) = [3, 1] ∧ pack [⟨5, 3⟩, ⟨1, 1⟩] = .word 13 := by decide
theorem witness_EncodeWord :
    (127 < 128 ∧ 511 < 2 ^ encWidthC .writeMem) ∧ (128 ≤ 128 ∨ 2 ^ encWidthC .writeMem ≤ 0) ∧
    (128 ≤ 0 ∨ 2 ^ encWidthC .writeMem ≤ 512) := by decide
theorem witness_SuccessfulLine :
    midEncoding.encStatus = .running ∧ encodeWord (Mnemonic.text .mod) 127 127 = .word .mod 0x00001FFF84#40 := by decide
theorem witness_FailingLine :
    midEncoding.activeUnit = .enc ∧ midEncoding.encStatus = .running ∧ midEncoding.binOut = none ∧
    midEncoding.logOut = none ∧ encodeWord "MOD" 0 128 = .failed .fieldOverflow ∧
    encodeWord "FOO" 1 2 = .failed (.unknownCommand "FOO") := by decide
theorem witness_EncoderActs :
    midEncoding.commitEncoding.encStatus ≠ .running ∧ (midEncoding.failEncoding .fieldOverflow).encStatus ≠ .running ∧
    midEncoding.commitEncoding.activeUnit = .enc := by decide
theorem witness_Commit :
    midEncoding.activeUnit = .enc ∧ midEncoding.encStatus = .running ∧ midEncoding.sourceText = [] ∧
    midEncoding.encWords[0]? = some 16633 := by decide
theorem witness_Malformed :
    (encAt [.malformed "MOD 5"]).activeUnit = .enc ∧ (encAt [.malformed "MOD 5"]).encStatus = .running ∧
    (encAt [.malformed "MOD 5"]).sourceText = .malformed "MOD 5" :: [] := by decide
theorem witness_HandOver :
    (EncoderInv midEncoding ∧ midEncoding.encStatus ≠ .committed) ∧
    (EncoderInv midEncoding.commitEncoding ∧ midEncoding.commitEncoding.encStatus = .committed) :=
  ⟨⟨midEncoding_inv, by decide⟩, ⟨midEncoding_inv.1, midEncoding_inv.2.1, rfl, rfl⟩, rfl⟩
theorem witness_DecoderRecovers :
    127 ≤ 127 ∧ 16383 < 2 ^ encWidthC .loadConst ∧ 127 < 2 ^ encWidthC .readMem ∧ 511 < 2 ^ encWidthC .writeMem ∧
    127 < 2 ^ encWidthC .mod := by decide
theorem witness_Reencoding :
    instrOf (decodeWord 0x00007FFFAC#40) = some (.writeMem 127 511) ∧ Instr.canonical (.writeMem 127 511) = true ∧
    instrOf (decodeWord 0x00008001AC#40) = some (.writeMem 3 512) ∧ Instr.canonical (.writeMem 3 512) = false := by decide
theorem witness_EncoderWords : encodeWord "READ_MEM" 3 2 = .word .readMem 0x0000008192#40 := by decide
theorem witness_EncodingRun :
    List.Forall₂ (fun (l : String × Nat × Nat) w => ∃ m, encodeWord l.1 l.2.1 l.2.2 = .word m w)
      [("LOAD_CONST", 1, 1)] [16633] ∧
    [("LOAD_CONST", 1, 1), ("FOO", 1, 2), ("MOD", 1, 1)] = [("LOAD_CONST", 1, 1)] ++ ("FOO", 1, 2) :: [("MOD", 1, 1)] ∧
    (∃ m w, encodeWord "LOAD_CONST" 1 1 = .word m w) ∧ encodeWord "FOO" 1 2 = .failed (.unknownCommand "FOO") :=
  ⟨.cons ⟨.loadConst, by decide⟩ .nil, rfl, ⟨.loadConst, 16633, by decide⟩, by decide⟩
theorem witness_CommittedStream :
    EncoderInv midEncoding.commitEncoding ∧
    midEncoding.commitEncoding.binOut = some [0xF9, 0x40, 0x00, 0x00, 0x00] ∧
    5 * 0 < ([0xF9, 0x40, 0x00, 0x00, 0x00] : List Byte).length :=
  ⟨⟨midEncoding_inv.1, midEncoding_inv.2.1, rfl, rfl⟩, by decide, by decide⟩
theorem witness_EncodedProgram :
    ∀ i ∈ [Instr.loadConst 5 10, .loadConst 6 3, .mod 5 6, .writeMem 60 511], i.canonical = true := by decide

end Sys2Proof.Tests
end

section
/-! PROOFS. What a step can do as two relations, one per unit, each tied to the model by an inversion lemma; and from them
the statements of spec/10_state.md: the frame, the terminal states, the program counter and the invariants of a run. -/

namespace Sys2Proof.Machine

/-! ### Words, records and the one-element end of a list -/

theorem getElem?_append_singleton_eq_some {α : Type} {l : List α} {x y : α} {k : Nat} :
    (l ++ [x])[k]? = some y ↔ l[k]? = some y ∨ k = l.length ∧ x = y := by
  rcases Nat.lt_trichotomy k l.length with hk | rfl | hk
  · simp [List.getElem?_append_left hk, Nat.ne_of_lt hk]
  · simp
  · have hlen : (l ++ [x]).length ≤ k := by simpa using hk
    simp [List.getElem?_eq_none hlen, List.getElem?_eq_none hk.le, hk.ne']

/-- ENC's accumulation over a line's three fields is the sum of R47, the fields not overlapping. -/
theorem accumulate_fieldList (m : Mnemonic) {b : Nat} (c : Nat) (hb : b < 128) :
    accumulate (fieldList m b c) = opc m + 128 * b + 16384 * c := by
  have hfold : accumulate (fieldList m b c) = (c <<< 7 ||| b) <<< 7 ||| opc m := by
    simp [fieldList, accumulate]
  rw [hfold, ← Nat.shiftLeft_add_eq_or_of_lt (opc_lt m), ← Nat.shiftLeft_add_eq_or_of_lt hb, Nat.shiftLeft_eq,
    Nat.shiftLeft_eq]
  omega

/-- ENC's word for an instruction it accepts is the word of format D (R52, R88). -/
theorem ofNat_accumulate_fieldList {i : Instr} (hb : i.opB < 128) :
    BitVec.ofNat 40 (accumulate (fieldList i.mnemonic i.opB i.opC)) = encode i := by
  rw [accumulate_fieldList _ _ hb]
  rfl

/-- The instruction a record names is the one DEC delivers for its bytes. -/
theorem decodeRecord_instr (x : WordBytes) : (decodeRecord x).instr = (decodeInstr x).toOption := by
  simp only [DecodeRecord.instr, decodeRecord, decodeInstr]
  cases mnemonicOfOpcode (decode x).A <;> rfl

theorem decodeRecord_fields (x : WordBytes) :
    (decodeRecord x).A = (wordOfBytes x).toNat % 128 ∧ (decodeRecord x).B = (wordOfBytes x).toNat / 128 % 128 ∧
      (decodeRecord x).C = (wordOfBytes x).toNat / 16384 % 16384 :=
  ⟨opcodeField_eq _, operandBField_eq _, operandCField_eq _⟩

/-- DEC delivers at most 14 bits of OperandC (R98). -/
theorem opC_le_of_decodeInstr {x : WordBytes} {i : Instr} (h : decodeInstr x = .ok i) : i.opC ≤ 16383 := by
  obtain ⟨-, -, hC⟩ := decodeInstr_eq_ok.1 h
  have := operandCField_lt (wordOfBytes x)
  omega

/-- A write of a bounded value keeps a bound on all cells. -/
theorem Memory.read_write_le {m : Memory} {n v : Nat} (hwf : m.wf = true) (hm : ∀ a, m.read a ≤ n) (hv : v ≤ n)
    (a a' : Nat) : (m.write a v).read a' ≤ n := by
  by_cases h : a' = a
  · rwa [h, Memory.read_write_self hwf]
  · rw [Memory.read_write_other m v h]
    exact hm a'

/-! ### The executor's turn as a relation -/

/-- What steps 3 to 5 of the loop make of the word `x`, from the running state `s` whose `pc` has advanced to the next
state (R109 to R119). -/
inductive WordTurn (x : WordBytes) (s : State) : State → Prop
  /-- The opcode selects nothing: the word is logged only (R117). -/
  | skipped {r : DecodeReject} (hd : decodeInstr x = .error r) : WordTurn x s (s.appendDlog (decodeRecord x))
  /-- The instruction uses an address that names no cell (R119). -/
  | faulted {i : Instr} {a : Nat} (hd : decodeInstr x = .ok i) (ha : 50 ≤ a) :
      WordTurn x s (s.takeFault (.addressFault a))
  /-- The instruction traces its event and writes no cell (R116). -/
  | traced {e : TraceEvent} (hd : decodeInstr x = .ok e.instr) (hw : e.written = none) :
      WordTurn x s ((s.appendTrace e).appendDlog (decodeRecord x))
  /-- The instruction writes its one cell and traces its event (R112 to R115). -/
  | wrote {e : TraceEvent} {a v : Nat} (hd : decodeInstr x = .ok e.instr) (hw : e.written = some (a, v))
      (ha : a < 50) (hv : v ≤ e.instr.opC ∨ ∃ a', v ≤ s.mem.read a') :
      WordTurn x s (((s.writeCell a v).appendTrace e).appendDlog (decodeRecord x))

/-- One turn of the executor from `s` to the next state (R105 to R107). -/
inductive ExuTurn (s : State) : State → Prop
  /-- HALTED and FAULTED are terminal. -/
  | idle (hr : s.exuStatus ≠ .running) : ExuTurn s s
  /-- Fewer than five bytes are left. -/
  | exhausted (hr : s.exuStatus = .running) (hf : fetch s.stream s.pc = none) : ExuTurn s s.halt
  /-- A word is fetched and run. -/
  | fetched {x : WordBytes} {t : State} (hr : s.exuStatus = .running) (hf : fetch s.stream s.pc = some x)
      (hw : WordTurn x s.advancePc t) : ExuTurn s t

theorem exuStep_turn {s t : State} (h : exuStep s = .next t) : ExuTurn s t := by
  rcases exuStep_cases s with ⟨hr, he⟩ | ⟨hr, hf, he⟩ | ⟨hr, x, hf, ⟨r, hd, he⟩ | ⟨i, hd, hi⟩⟩
  · cases he.symm.trans h
    exact .idle hr
  · cases he.symm.trans h
    exact .exhausted hr hf
  · cases he.symm.trans h
    exact .fetched hr hf (.skipped hd)
  · refine .fetched hr hf ?_
    rcases hi with ⟨a, ha, -, he⟩ | ⟨e, rfl, hw, -, he⟩ | ⟨v, e, rfl, hw, ha, hv, -, he⟩ <;> cases he.symm.trans h
    · exact .faulted hd ha
    · exact .traced hd hw
    · exact .wrote hd hw ha hv

/-- The executor's items of `u` with everything else of `s`. -/
def State.withExecutorOf (s u : State) : State :=
  { s with pc := u.pc, mem := u.mem, trace := u.trace, dlog := u.dlog, exuStatus := u.exuStatus }

theorem WordTurn.frame {x : WordBytes} {s t : State} (h : WordTurn x s t) : t = s.withExecutorOf t := by
  cases h <;> rfl

theorem ExuTurn.frame {s t : State} (h : ExuTurn s t) : t = s.withExecutorOf t := by
  cases h with
  | idle => rfl
  | exhausted => rfl
  | fetched _ _ hw => exact hw.frame

theorem WordTurn.pc_eq {x : WordBytes} {s t : State} (h : WordTurn x s t) : t.pc = s.pc := by
  cases h <;> rfl

theorem ExuTurn.stream_eq {s t : State} (h : ExuTurn s t) : t.stream = s.stream := by
  rw [h.frame]
  rfl

/-- A word is logged and leaves the status, or it faults and is not logged (R118, R119). -/
theorem WordTurn.logged_or_faulted {x : WordBytes} {s t : State} (h : WordTurn x s t) :
    (t.dlog = s.dlog ++ [decodeRecord x] ∧ t.exuStatus = s.exuStatus) ∨
      (t.dlog = s.dlog ∧ isFaulted t.exuStatus = true) := by
  cases h with
  | skipped | traced | wrote => exact .inl ⟨rfl, rfl⟩
  | faulted => exact .inr ⟨rfl, rfl⟩

theorem WordTurn.not_halted {x : WordBytes} {s t : State} (h : WordTurn x s t) (hr : s.exuStatus = .running) :
    t.exuStatus ≠ .halted := by
  rcases h.logged_or_faulted with ⟨-, hs⟩ | ⟨-, hs⟩
  · simp [hs, hr]
  · intro ht
    simp [ht, isFaulted] at hs

/-! ### The encoder's turn as a relation -/

/-- One turn of the encoder from `s` to the next state (R75, R76, R83 to R86). -/
inductive EncTurn (s : State) : State → Prop
  /-- FAILED and COMMITTED are terminal. -/
  | idle (hr : s.encStatus ≠ .running) : EncTurn s s
  /-- The text has ended. -/
  | committed (hr : s.encStatus = .running) (ht : s.sourceText = []) : EncTurn s s.commitEncoding
  /-- ENC accepts no line with this token and these operands. -/
  | failed {token : String} {b c : Nat} {rest : List SourceLine} {e : EncError} (hr : s.encStatus = .running)
      (ht : s.sourceText = .instr token b c :: rest) (he : encodeWord token b c = .failed e) :
      EncTurn s ((s.setSourceText rest).failEncoding e)
  /-- The line is that of an instruction ENC can write. -/
  | encoded {i : Instr} {rest : List SourceLine} (hr : s.encStatus = .running)
      (ht : s.sourceText = sourceLine i :: rest) (hi : i.canonical = true) :
      EncTurn s ((s.setSourceText rest).appendEncoded (encode i)
        (assemblyRecord i.mnemonic i.mnemonic.text i.opB i.opC (encode i)))

theorem encStep_turn {s t : State} (h : encStep s = .next t) : EncTurn s t := by
  rcases encStep_cases s with ⟨hr, he⟩ | ⟨hr, ht, he⟩ | ⟨-, _, _, -, he⟩ | ⟨hr, token, b, c, rest, ht, hl⟩
  · cases he.symm.trans h
    exact .idle hr
  · cases he.symm.trans h
    exact .committed hr ht
  · cases he.symm.trans h
  · rcases hl with ⟨e, hw, he⟩ | ⟨m, rfl, hb, hc, he⟩ <;> cases he.symm.trans h
    · exact .failed hr ht hw
    · obtain ⟨i, rfl, rfl, rfl⟩ : ∃ i : Instr, i.mnemonic = m ∧ i.opB = b ∧ i.opC = c := ⟨.ofMnemonic m b c, by simp⟩
      rw [ofNat_accumulate_fieldList hb]
      exact .encoded hr ht (i.canonical_iff.2 ⟨hb, hc⟩)

/-- The encoder's items of `u` with everything else of `s`. -/
def State.withEncoderOf (s u : State) : State :=
  { s with
    encWords := u.encWords, encLog := u.encLog, encStatus := u.encStatus
    binOut := u.binOut, logOut := u.logOut, sourceText := u.sourceText }

theorem EncTurn.frame {s t : State} (h : EncTurn s t) : t = s.withEncoderOf t := by
  cases h <;> rfl

/-! ### A step is a turn of the active unit -/

theorem step_exu_turn {s t : State} (hu : s.activeUnit = .exu) (h : step s = .next t) : ExuTurn s t :=
  exuStep_turn ((step_exu hu).symm.trans h)

theorem step_enc_turn {s t : State} (hu : s.activeUnit = .enc) (h : step s = .next t) : EncTurn s t :=
  encStep_turn ((step_enc hu).symm.trans h)

/-- A property of the executor's side is kept by every step when the executor's turns keep it. -/
theorem step_keeps_of_exuTurn {P : State → Prop} (hframe : ∀ s u, P s → P (s.withEncoderOf u))
    (hturn : ∀ s t, P s → ExuTurn s t → P t) (s t : State) (hs : P s) (h : step s = .next t) : P t := by
  cases hu : s.activeUnit with
  | exu => exact hturn s t hs (step_exu_turn hu h)
  | enc =>
    rw [(step_enc_turn hu h).frame]
    exact hframe s t hs

/-- A property of the encoder's side is kept by every step when the encoder's turns keep it. -/
theorem step_keeps_of_encTurn {P : State → Prop} (hframe : ∀ s u, P s → P (s.withExecutorOf u))
    (hturn : ∀ s t, P s → EncTurn s t → P t) (s t : State) (hs : P s) (h : step s = .next t) : P t := by
  cases hu : s.activeUnit with
  | enc => exact hturn s t hs (step_enc_turn hu h)
  | exu =>
    rw [(step_exu_turn hu h).frame]
    exact hframe s t hs

/-! ### The program counter (R13, R14) -/

theorem ExuTurn.pc_of_word {s t : State} (h : ExuTurn s t) (hr : s.exuStatus = .running)
    (hw : s.pc + 5 ≤ s.stream.length) : t.pc = s.pc + 5 := by
  cases h with
  | idle hn => exact absurd hr hn
  | exhausted _ hf =>
    have := fetch_eq_none.1 hf
    omega
  | fetched _ _ hx => exact hx.pc_eq

theorem ExuTurn.pc_of_no_word {s t : State} (h : ExuTurn s t)
    (hn : s.exuStatus ≠ .running ∨ s.stream.length < s.pc + 5) : t.pc = s.pc := by
  cases h with
  | idle => rfl
  | exhausted => rfl
  | fetched hr hf =>
    have := fetch_bound hf
    rcases hn with hn | hn
    · exact absurd hr hn
    · omega

theorem PcInv.exuTurn (s t : State) (hs : PcInv s) (h : ExuTurn s t) : PcInv t := by
  have ⟨hmod, hle, _⟩ := hs
  cases h with
  | idle => exact hs
  | exhausted _ hf => exact ⟨hmod, hle, fun _ => fetch_eq_none.1 hf⟩
  | fetched hr hf hw =>
    have hpc : t.pc = s.pc + 5 := hw.pc_eq
    have hstream : t.stream = s.stream := (ExuTurn.fetched hr hf hw).stream_eq
    have hbound := fetch_bound hf
    exact ⟨by omega, by rw [hpc, hstream]; exact hbound, fun ht => absurd ht (hw.not_halted hr)⟩

/-- Settles O19: only a fetch moves `pc`, by one word that lies inside the stream, and a run halts only where no word is
left. -/
theorem stepKeepsPcInv : Obligations.StepKeepsPcInv :=
  step_keeps_of_exuTurn (fun _ _ hs => hs) PcInv.exuTurn

/-! ### The cells (R16) -/

theorem CellsInv.writeCell {s : State} (hs : CellsInv s) {a v : Nat} (ha : a < 50) (hv : v ≤ 16383) :
    CellsInv (s.writeCell a v) :=
  ⟨Memory.write_wf hs.1 v ha, Memory.read_write_le hs.1 hs.2 hv a⟩

theorem CellsInv.wordTurn {x : WordBytes} {s t : State} (hs : CellsInv s) (h : WordTurn x s t) : CellsInv t := by
  cases h with
  | skipped | faulted | traced => exact hs
  | wrote hd _ ha hv =>
    refine hs.writeCell ha ?_
    rcases hv with hv | ⟨a', hv⟩
    · exact hv.trans (opC_le_of_decodeInstr hd)
    · exact hv.trans (hs.2 a')

theorem CellsInv.exuTurn (s t : State) (hs : CellsInv s) (h : ExuTurn s t) : CellsInv t := by
  cases h with
  | idle | exhausted => exact hs
  | fetched _ _ hw => exact CellsInv.wordTurn (s := s.advancePc) hs hw

/-- Settles O20: a value written is at most a decoded OperandC, which has 14 bits, or at most a cell. -/
theorem stepKeepsCellsInv : Obligations.StepKeepsCellsInv :=
  step_keeps_of_exuTurn (fun _ _ hs => hs) CellsInv.exuTurn

/-! ### The decode log (R22) -/

theorem DecodeLogInv.exuTurn (s t : State) (hs : DecodeLogInv s) (h : ExuTurn s t) : DecodeLogInv t := by
  have ⟨hpc, hlog⟩ := hs
  cases h with
  | idle => exact hs
  | exhausted hr =>
    rw [hr] at hpc
    exact ⟨hpc, hlog⟩
  | fetched hr hf hw =>
    have hpc' : t.pc = s.pc + 5 := hw.pc_eq
    have hstream : t.stream = s.stream := (ExuTurn.fetched hr hf hw).stream_eq
    have hlen : s.pc = 5 * s.dlog.length := by simpa [hr, isFaulted] using hpc
    have hnext : t.pc = 5 * (s.dlog.length + 1) := by omega
    rcases hw.logged_or_faulted with ⟨hd, hst⟩ | ⟨hd, hst⟩
    · refine ⟨?_, fun k r hk => ?_⟩
      · simpa [hd, hst, hr, isFaulted] using hnext
      · rw [hd] at hk
        rw [hstream]
        rcases getElem?_append_singleton_eq_some.1 hk with hk | ⟨rfl, rfl⟩
        · exact hlog k r hk
        · exact ⟨by rw [State.advancePc_dlog, ← hlen, hf]; rfl, decodeRecord_fields _⟩
    · refine ⟨?_, fun k r hk => ?_⟩
      · simpa [hd, hst] using hnext
      · rw [hd] at hk
        rw [hstream]
        exact hlog k r hk

/-- Settles O22: a fetched word is logged at the offset it was fetched from, or faults and is not logged. -/
theorem stepKeepsDecodeLogInv : Obligations.StepKeepsDecodeLogInv :=
  step_keeps_of_exuTurn (fun _ _ hs => hs) DecodeLogInv.exuTurn

/-! ### The trace (R21) -/

theorem TraceInv.wordTurn {x : WordBytes} {s t : State} (hs : TraceInv s) (h : WordTurn x s t) : TraceInv t := by
  unfold TraceInv at hs ⊢
  cases h with
  | faulted => exact hs
  | skipped hd => simp [hs, decodeRecord_instr, hd, Except.toOption]
  | traced hd | wrote hd => simp [hs, decodeRecord_instr, hd, Except.toOption]

theorem TraceInv.exuTurn (s t : State) (hs : TraceInv s) (h : ExuTurn s t) : TraceInv t := by
  cases h with
  | idle | exhausted => exact hs
  | fetched _ _ hw => exact TraceInv.wordTurn (s := s.advancePc) hs hw

/-- Settles O23: an event is traced exactly with the record of the word whose instruction it is. -/
theorem stepKeepsTraceInv : Obligations.StepKeepsTraceInv :=
  step_keeps_of_exuTurn (fun _ _ hs => hs) TraceInv.exuTurn

/-! ### The encoder (R19, R20) -/

theorem encode_toNat_of_canonical {i : Instr} (h : i.canonical = true) :
    (encode i).toNat = opc i.mnemonic + 128 * i.opB + 16384 * i.opC := by
  obtain ⟨-, -, -, hwf⟩ := Laws.TableRow.of_instr i
  exact encode_toNat (hwf h)

theorem EncoderInv.encTurn (s t : State) (hs : EncoderInv s) (h : EncTurn s t) : EncoderInv t := by
  have ⟨hlen, hword, hout⟩ := hs
  cases h with
  | idle => exact hs
  | committed => exact ⟨hlen, hword, rfl, rfl⟩
  | failed hr =>
    rw [hr] at hout
    exact ⟨rfl, fun k w hk => absurd hk (by simp), rfl, hout⟩
  | encoded hr _ hi =>
    refine ⟨by simp [hlen], fun k w hk => ?_, ?_⟩
    · rcases getElem?_append_singleton_eq_some.1 hk with hk | ⟨rfl, rfl⟩
      · obtain ⟨j, hj, hw, hrec⟩ := hword k w hk
        exact ⟨j, hj, hw, getElem?_append_singleton_eq_some.2 (.inl hrec)⟩
      · exact ⟨_, hi, encode_toNat_of_canonical hi, getElem?_append_singleton_eq_some.2 (.inr ⟨hlen, rfl⟩)⟩
    · simpa [hr] using hout

/-- Settles O24: a line appends one canonical word with its record, a failure discards both sequences, and the commit sets
the outputs to them. -/
theorem stepKeepsEncoderInv : Obligations.StepKeepsEncoderInv :=
  step_keeps_of_encTurn (fun _ _ hs => hs) EncoderInv.encTurn

/-! ### Faults and terminal states (R18, R119) -/

/-- The checks of a list of addresses, one after the other, before `goOn` (R110). -/
def requireCells (l : List Nat) (s : State) (goOn : Answer) : Answer := l.foldr (fun a k => requireCell a s k) goOn

/-- Every instruction checks the addresses it uses, in order, before anything else. -/
theorem exec_eq_requireCells (i : Instr) (s : State) : ∃ goOn, exec i s = requireCells (usedAddresses i s) s goOn := by
  cases i <;> exact ⟨_, rfl⟩

/-- The first address of the list that names no cell is the one that faults. -/
theorem requireCells_of_find? {l : List Nat} {a : Nat} (s : State) (goOn : Answer)
    (h : l.find? (fun a => decide (Config.memSize ≤ a)) = some a) :
    requireCells l s goOn = .next (s.takeFault (.addressFault a)) := by
  induction l with
  | nil => cases h
  | cons a' l ih =>
    rcases Nat.lt_or_ge a' 50 with ha | ha
    · rw [List.find?_cons_of_neg (by simpa using ha)] at h
      exact (requireCell_inRange ha s _).trans (ih h)
    · rw [List.find?_cons_of_pos (by simpa using ha)] at h
      cases h
      exact requireCell_outOfRange ha s _

/-- An instruction faults at its first address that names no cell (R110, R136). -/
theorem exec_of_firstOffending {i : Instr} {s : State} {a : Nat} (h : firstOffending i s = some a) :
    exec i s = .next (s.takeFault (.addressFault a)) := by
  obtain ⟨goOn, he⟩ := exec_eq_requireCells i s
  rw [he, requireCells_of_find? s goOn h]

theorem firstOffending_advancePc (i : Instr) (s : State) : firstOffending i s.advancePc = firstOffending i s := by
  cases i <;> rfl

theorem runWord_ok {x : WordBytes} {i : Instr} (h : decodeInstr x = .ok i) (s : State) :
    runWord x s = logAfter x (exec i s) := by
  simp [runWord, h]

theorem step_of_firstOffending {s : State} {x : WordBytes} {i : Instr} {a : Nat} (hu : s.activeUnit = .exu)
    (hr : s.exuStatus = .running) (hf : fetch s.stream s.pc = some x) (hd : decodeInstr x = .ok i)
    (ha : firstOffending i s = some a) : step s = .next (s.advancePc.takeFault (.addressFault a)) := by
  rw [step_exu hu, exuStep_fetched hr hf, runWord_ok hd,
    exec_of_firstOffending ((firstOffending_advancePc i s).trans ha), logAfter_faulted rfl]

theorem step_terminal {s : State} (h : s.activeUnit = .exu ∧ s.exuStatus ≠ .running ∨
    s.activeUnit = .enc ∧ s.encStatus ≠ .running) : step s = .next s := by
  rcases h with ⟨hu, hr⟩ | ⟨hu, hr⟩
  · rw [step_exu hu, exuStep_terminal hr]
  · rw [step_enc hu, encStep_terminal hr]

/-- Settles O16: a step in a terminal state answers that state, so every number of steps does. -/
theorem terminalStatesAreNeverLeft : Obligations.TerminalStatesAreNeverLeft :=
  fun _ k h => run_stays (step_terminal h) k

/-- Settles O14: the step takes the fault, and the faulted state is terminal. -/
theorem faultFreezesTheRun : Obligations.FaultFreezesTheRun := by
  intro s x i a hu hr hf hd ha
  refine ⟨s.advancePc.takeFault (.addressFault a), rfl, step_of_firstOffending hu hr hf hd ha, fun k => ?_, rfl⟩
  exact terminalStatesAreNeverLeft _ k (.inl ⟨hu, by simp⟩)

/-! ### What a step leaves unchanged (R13, R15, R26) -/

/-- Settles O15: by the two lemmas on the executor's turn; the encoder's turn leaves the executor's items. -/
theorem onlyTheFetchMovesThePc : Obligations.OnlyTheFetchMovesThePc := by
  intro s t h
  cases hu : s.activeUnit with
  | exu =>
    have hturn := step_exu_turn hu h
    exact ⟨fun _ => hturn.pc_of_word, fun hn => hturn.pc_of_no_word (hn.resolve_left (by decide))⟩
  | enc =>
    have hpc : t.pc = s.pc := by
      rw [(step_enc_turn hu h).frame]
      rfl
    exact ⟨fun hx => absurd hx (by decide), fun _ => hpc⟩

/-- Settles O18: the frames of the two units' turns. -/
theorem unitsDoNotTouchEachOther : Obligations.UnitsDoNotTouchEachOther :=
  fun _ _ h => ⟨fun hu => (step_exu_turn hu h).frame, fun hu => (step_enc_turn hu h).frame⟩

/-! ### Reset and the start of a run (R25, R150) -/

/-- Every execution run starts in the invariants: nothing is fetched, written, traced or logged. -/
theorem executor_invariants_exuReset (s : State) (S : List Byte) (first last : Nat) :
    PcInv (s.exuReset S first last) ∧ CellsInv (s.exuReset S first last) ∧ MemoryInv (s.exuReset S first last) ∧
      DecodeLogInv (s.exuReset S first last) ∧ TraceInv (s.exuReset S first last) := by
  refine ⟨⟨rfl, Nat.zero_le _, fun h => ?_⟩, ⟨rfl, fun _ => Nat.zero_le _⟩, ⟨rfl, fun _ => rfl⟩,
    ⟨rfl, fun k r h => ?_⟩, rfl⟩
  · simp at h
  · simp at h

theorem encoderInv_encReset (s : State) (text : List SourceLine) : EncoderInv (s.encReset text) := by
  refine ⟨rfl, fun k w h => ?_, rfl, rfl⟩
  simp at h

/-- Settles O25: the state at reset is the start of an execution run over the empty stream, and its encoder that of an
encoding run over the empty text. -/
theorem invariantsHoldAtTheStartOfARun : Obligations.InvariantsHoldAtTheStartOfARun := by
  refine ⟨?_, executor_invariants_exuReset, encoderInv_encReset⟩
  obtain ⟨hpc, hcells, hmem, hdlog, htrace⟩ := executor_invariants_exuReset State.reset [] 0 0
  exact ⟨hpc, hcells, hmem, hdlog, htrace, encoderInv_encReset State.reset []⟩

/-- Settles O26: reset and the two starts of a run set these values by definition. -/
theorem runsStartFromTheResetState : Obligations.RunsStartFromTheResetState :=
  ⟨⟨rfl, fun _ => rfl, rfl, rfl, rfl, rfl, rfl, rfl, rfl, rfl⟩, fun _ _ _ _ => rfl, fun _ _ => rfl⟩

end Sys2Proof.Machine
end

section
/-! PROOFS. The data memory and the instruction stream (spec/20_memory.md): what an instruction may change, the memory as
the latest traced writes, the fetch, the hand-off of a committed stream, and the run of an encoded program. -/

namespace Sys2Proof.Machine

/-! ### The latest traced write (R40) -/

theorem latestWrite_append (a : Nat) (l l' : List TraceEvent) (found : Nat) :
    latestWrite a (l ++ l') found = latestWrite a l' (latestWrite a l found) := by
  induction l generalizing found with
  | nil => rfl
  | cons e l ih =>
    cases hw : e.written <;> simp only [List.cons_append, latestWrite, hw, ih]

/-- An event without a write leaves the latest write to every cell. -/
theorem latestWrite_concat_of_none {e : TraceEvent} (hw : e.written = none) (a : Nat) (l : List TraceEvent)
    (found : Nat) : latestWrite a (l ++ [e]) found = latestWrite a l found := by
  simp only [latestWrite_append, latestWrite, hw]

/-- An event with a write is the latest for its cell and for no other. -/
theorem latestWrite_concat_of_some {e : TraceEvent} {b v : Nat} (hw : e.written = some (b, v)) (a : Nat)
    (l : List TraceEvent) (found : Nat) :
    latestWrite a (l ++ [e]) found = if a = b then v else latestWrite a l found := by
  simp only [latestWrite_append, latestWrite, hw]

/-- Reading any cell after a write of a canonical memory. -/
theorem Memory.read_write {m : Memory} (hwf : m.wf = true) (b v a : Nat) :
    (m.write b v).read a = if a = b then v else m.read a := by
  split
  · next h => rw [h, Memory.read_write_self hwf]
  · next h => exact Memory.read_write_other m v h

theorem MemoryInv.traceWithoutWrite {s : State} (hs : MemoryInv s) {e : TraceEvent} (hw : e.written = none) :
    MemoryInv (s.appendTrace e) :=
  ⟨hs.1, fun a => (hs.2 a).trans (latestWrite_concat_of_none hw a s.trace 0).symm⟩

/-- A write and the event that says so change the cell and the latest write to it alike. -/
theorem MemoryInv.writeAndTrace {s : State} (hs : MemoryInv s) {e : TraceEvent} {b v : Nat}
    (hw : e.written = some (b, v)) (hb : b < 50) : MemoryInv ((s.writeCell b v).appendTrace e) := by
  obtain ⟨hwf, hread⟩ := hs
  refine ⟨Memory.write_wf hwf v hb, fun a => ?_⟩
  calc (s.mem.write b v).read a
      = if a = b then v else s.mem.read a := Memory.read_write hwf b v a
    _ = if a = b then v else latestWrite a s.trace 0 := by rw [hread]
    _ = latestWrite a (s.trace ++ [e]) 0 := (latestWrite_concat_of_some hw a s.trace 0).symm

theorem MemoryInv.wordTurn {x : WordBytes} {s t : State} (hs : MemoryInv s) (h : WordTurn x s t) : MemoryInv t := by
  cases h with
  | skipped | faulted => exact hs
  | traced _ hw => exact hs.traceWithoutWrite hw
  | wrote _ hw ha => exact hs.writeAndTrace hw ha

theorem MemoryInv.exuTurn (s t : State) (hs : MemoryInv s) (h : ExuTurn s t) : MemoryInv t := by
  cases h with
  | idle | exhausted => exact hs
  | fetched _ _ hw => exact MemoryInv.wordTurn (s := s.advancePc) hs hw

/-- Settles O21: a cell is written exactly with the event that records the write, and the encoder writes none. -/
theorem stepKeepsMemoryInv : Obligations.StepKeepsMemoryInv :=
  step_keeps_of_exuTurn (fun _ _ hs => hs) MemoryInv.exuTurn

/-! ### What an instruction may change (R37, R110) -/

/-- Settles O8: an instruction takes a fault, traces an event, or writes its destination and traces an event. -/
theorem instructionsChangeOnlyTheirCell : Obligations.InstructionsChangeOnlyTheirCell := by
  intro i s
  rcases exec_cases i s with ⟨a, ha, he⟩ | ⟨e, -, -, he⟩ | ⟨v, e, -, -, -, -, he⟩
  · exact ⟨_, he, rfl, fun _ _ => rfl, .inr ⟨⟨a, ha, rfl⟩, rfl, rfl⟩⟩
  · exact ⟨_, he, rfl, fun _ _ => rfl, .inl ⟨rfl, e, rfl⟩⟩
  · exact ⟨_, he, rfl, fun _ ha => Memory.read_write_other s.mem v ha, .inl ⟨rfl, e, rfl⟩⟩

/-- Memory, trace and status are all that an instruction may change. -/
theorem exec_frame {i : Instr} {s t : State} (h : exec i s = .next t) :
    t = { s with mem := t.mem, trace := t.trace, exuStatus := t.exuStatus } := by
  obtain ⟨t', he, hframe, -⟩ := instructionsChangeOnlyTheirCell i s
  cases he.symm.trans h
  exact hframe

theorem exec_exuStatus_of_not_faulted {i : Instr} {s t : State} (h : exec i s = .next t)
    (hf : isFaulted t.exuStatus = false) : t.exuStatus = s.exuStatus := by
  obtain ⟨t', he, -, -, ⟨hstatus, -⟩ | ⟨⟨a, -, hstatus⟩, -, -⟩⟩ := instructionsChangeOnlyTheirCell i s
  · cases he.symm.trans h
    exact hstatus
  · cases he.symm.trans h
    rw [hstatus] at hf
    cases hf

/-! ### The fetch (R31) -/

/-- Where the stream at `pc` begins with a word's bytes, the fetch gives that word. -/
theorem fetch_of_drop_eq {l rest : List Byte} {pc : Nat} {x : WordBytes} (h : l.drop pc = listOfBytes x ++ rest) :
    fetch l pc = some x := by
  rw [fetch, h, firstWord_listOfBytes]

/-- Settles O9: five bytes at `pc` are what `drop pc` begins with. -/
theorem fetchReadsFiveBytesInOrder : Obligations.FetchReadsFiveBytesInOrder := by
  refine fun S pc => ⟨fun h => fetch_of_drop_eq (rest := S.drop (pc + 5)) ?_, fetch_eq_none.2⟩
  rw [List.drop_eq_getElem_cons (show pc < S.length by omega),
    List.drop_eq_getElem_cons (show pc + 1 < S.length by omega),
    List.drop_eq_getElem_cons (show pc + 2 < S.length by omega),
    List.drop_eq_getElem_cons (show pc + 3 < S.length by omega),
    List.drop_eq_getElem_cons (show pc + 4 < S.length by omega)]
  rfl

/-! ### The word the host places (assumption log 17) -/

/-- The stream up to the offset `n`, filled with zeros where it is shorter: what stands before a placed word. -/
def streamUpTo (l : List Byte) (n : Nat) : List Byte := (l ++ List.replicate (n - l.length) 0).take n

theorem length_streamUpTo (l : List Byte) (n : Nat) : (streamUpTo l n).length = n := by
  simp only [streamUpTo, List.length_take, List.length_append, List.length_replicate]
  omega

theorem getElem?_streamUpTo {l : List Byte} {n k : Nat} (hn : k < n) (hl : k < l.length) :
    (streamUpTo l n)[k]? = l[k]? := by
  rw [streamUpTo, List.getElem?_take_of_lt hn, List.getElem?_append_left hl]

theorem placeWord_stream (s : State) (w : Word) :
    (s.placeWord w).stream =
      streamUpTo s.stream s.pc ++ (listOfBytes (bytesOfWord w) ++ s.stream.drop (s.pc + 5)) :=
  List.append_assoc ..

theorem fetch_placeWord (s : State) (w : Word) : fetch (s.placeWord w).stream s.pc = some (bytesOfWord w) :=
  fetch_of_drop_eq (by rw [placeWord_stream, List.drop_left' (length_streamUpTo ..)])

theorem getElem?_placeWord_stream (s : State) (w : Word) {k : Nat} (hpc : k < s.pc) (hk : k < s.stream.length) :
    (s.placeWord w).stream[k]? = s.stream[k]? := by
  rw [placeWord_stream, List.getElem?_append_left (by rwa [length_streamUpTo]), getElem?_streamUpTo hpc hk]

/-- Settles O12: the placed word follows exactly `pc` bytes, and those the stream had are kept. -/
theorem placedWordIsFetchedNext : Obligations.PlacedWordIsFetchedNext :=
  fun s _ _ => ⟨_, rfl, rfl, fetch_placeWord s _, fun _ => getElem?_placeWord_stream s _⟩

/-! ### The hand-off (R43) -/

theorem handOver_of_some {s : State} {S : List Byte} (h : s.binOut = some S) (first last : Nat) :
    s.handOver first last = .ok (s.exuReset S first last) := by
  simp only [State.handOver, h]

theorem handOver_of_none {s : State} (h : s.binOut = none) (first last : Nat) :
    s.handOver first last = .error .noCommittedStream := by
  simp only [State.handOver, h]

theorem EncoderInv.binOut_of_committed {s : State} (hs : EncoderInv s) (hc : s.encStatus = .committed) :
    s.binOut = some (s.encWords.flatMap fun w => listOfBytes (bytesOfWord w)) := by
  obtain ⟨-, -, hout⟩ := hs
  rw [hc] at hout
  exact hout.1

theorem EncoderInv.binOut_of_not_committed {s : State} (hs : EncoderInv s) (hc : s.encStatus ≠ .committed) :
    s.binOut = none := by
  obtain ⟨-, -, hout⟩ := hs
  cases he : s.encStatus with
  | running => rw [he] at hout; exact hout.1
  | failed e => rw [he] at hout; exact hout.2.1
  | committed => exact absurd he hc

/-- Settles O50: the stream is present in a committed run and in no other. -/
theorem onlyACommittedStreamIsHandedOver : Obligations.OnlyACommittedStreamIsHandedOver := by
  refine fun s first last hs => ⟨fun hc => ?_, fun hc => ?_⟩
  · have hout := hs.binOut_of_committed hc
    exact ⟨_, _, handOver_of_some hout first last, hout, rfl, rfl, rfl, rfl, rfl⟩
  · exact handOver_of_none (hs.binOut_of_not_committed hc) first last

/-! ### Encoding a program ENC can write (R84, R86, R89) -/

/-- The byte stream of a list of words. -/
def streamOfWords (ws : List Word) : List Byte := ws.flatMap fun w => listOfBytes (bytesOfWord w)

theorem encodeWord_of_canonical {i : Instr} (hi : i.canonical = true) :
    encodeWord i.mnemonic.text i.opB i.opC = .word i.mnemonic (encode i) := by
  have hfit := i.canonical_iff.1 hi
  simp only [encodeWord, mnemonicOfText_text, pack_fieldList, if_pos hfit, ofNat_accumulate_fieldList hfit.1]

theorem step_sourceLine {s : State} {i : Instr} {rest : List SourceLine} (hu : s.activeUnit = .enc)
    (hr : s.encStatus = .running) (ht : s.sourceText = sourceLine i :: rest) (hi : i.canonical = true) :
    step s = .next ((s.setSourceText rest).appendEncoded (encode i)
      (assemblyRecord i.mnemonic i.mnemonic.text i.opB i.opC (encode i))) := by
  rw [step_enc hu]
  simp [encStep, encLine, hr, ht, sourceLine, encodeWord_of_canonical hi]

theorem step_endOfText {s : State} (hu : s.activeUnit = .enc) (hr : s.encStatus = .running)
    (ht : s.sourceText = []) : step s = .next s.commitEncoding := by
  rw [step_enc hu]
  simp [encStep, encEnd, hr, ht]

/-- One step for each line and one for the end of the text commit the pending words followed by those of the lines. -/
theorem run_encodes {s : State} {is : List Instr} (hu : s.activeUnit = .enc) (hr : s.encStatus = .running)
    (ht : s.sourceText = is.map sourceLine) (his : ∀ i ∈ is, i.canonical = true) :
    ∃ t, Sys2Proof.core.run (is.length + 1) s = .next t ∧
      t.binOut = some (streamOfWords (s.encWords ++ is.map encode)) := by
  induction is generalizing s with
  | nil =>
    refine ⟨s.commitEncoding, run_succ (step_endOfText hu hr ht) 0, ?_⟩
    rw [List.map_nil, List.append_nil]
    rfl
  | cons i is ih =>
    obtain ⟨hi, his⟩ := List.forall_mem_cons.1 his
    rw [List.length_cons, run_succ (step_sourceLine hu hr ht hi)]
    simpa using ih (s := (s.setSourceText (is.map sourceLine)).appendEncoded _ _) hu hr rfl his

/-! ### Executing the stream of a program ENC can write (R40, R109, R121) -/

theorem wordOfBytes_bytesOfWord (w : Word) : wordOfBytes (bytesOfWord w) = w := by
  simp only [wordOfBytes, bytesOfWord]
  iterate 4 rw [BitVec.extractLsb'_append_extractLsb'_eq_extractLsb' (by rfl)]
  exact BitVec.extractLsb'_eq_self

/-- DEC recovers the instruction from ENC's word (R51). -/
theorem decodeInstr_encode {i : Instr} (hi : i.canonical = true) : decodeInstr (bytesOfWord (encode i)) = .ok i := by
  have hw := encode_toNat_of_canonical hi
  have hA := opc_lt i.mnemonic
  obtain ⟨-, -, -, hwf⟩ := Laws.TableRow.of_instr i
  obtain ⟨hB, hC⟩ := i.wf_iff.1 (hwf hi)
  rw [decodeInstr_eq_ok, wordOfBytes_bytesOfWord, opcodeField_eq, operandBField_eq, operandCField_eq]
  omega

theorem execInOrder_cons {i : Instr} {s t : State} (h : exec i s = .next t) (is : List Instr) :
    execInOrder (i :: is) s = if isFaulted t.exuStatus then t else execInOrder is t := by
  simp only [execInOrder, h]

/-- Two states with the same memory, trace and status of the executor, whatever else differs. -/
structure SameData (s s' : State) : Prop where
  mem : s.mem = s'.mem
  trace : s.trace = s'.trace
  exuStatus : s.exuStatus = s'.exuStatus

/-- An instruction reads the memory alone, so it keeps two states' data the same. -/
theorem SameData.after_exec {s s' : State} (h : SameData s s') (i : Instr) :
    ∃ t t', exec i s = .next t ∧ exec i s' = .next t' ∧ SameData t t' := by
  obtain ⟨hmem, htrace, hstatus⟩ := h
  rcases exec_congr_mem i hmem with ⟨a, he, he'⟩ | ⟨e, he, he'⟩ | ⟨v, e, he, he'⟩
  · exact ⟨_, _, he, he', hmem, htrace, rfl⟩
  · exact ⟨_, _, he, he', hmem, congrArg (· ++ [e]) htrace, hstatus⟩
  · exact ⟨_, _, he, he', congrArg (Memory.write · _ v) hmem, congrArg (· ++ [e]) htrace, hstatus⟩

/-- A running executor about to fetch the stream of `is`. -/
structure AboutToRun (is : List Instr) (s : State) : Prop where
  activeUnit : s.activeUnit = .exu
  running : s.exuStatus = .running
  stream : s.stream.drop s.pc = streamOfWords (is.map encode)

/-- A run that ends in `v` has the memory and trace of `w` and its fault, or is halted where `w` has none. -/
def EndsAs (v w : State) : Prop :=
  v.mem = w.mem ∧ v.trace = w.trace ∧ v.exuStatus = if isFaulted w.exuStatus then w.exuStatus else .halted

theorem AboutToRun.step_nil {s : State} (h : AboutToRun [] s) : step s = .next s.halt := by
  obtain ⟨hu, hr, hstream⟩ := h
  rw [step_exu hu, exuStep_exhausted hr (by rw [fetch, hstream]; rfl)]

theorem AboutToRun.step_cons {i : Instr} {is : List Instr} {s : State} (h : AboutToRun (i :: is) s)
    (hi : i.canonical = true) :
    step s = logAfter (bytesOfWord (encode i)) (exec i s.advancePc) := by
  obtain ⟨hu, hr, hstream⟩ := h
  rw [step_exu hu, exuStep_fetched hr (fetch_of_drop_eq hstream), runWord_ok (decodeInstr_encode hi)]

/-- An instruction that does not fault leaves the executor about to run the rest. -/
theorem AboutToRun.rest {i : Instr} {is : List Instr} {s t : State} (h : AboutToRun (i :: is) s)
    (he : exec i s.advancePc = .next t) (hf : isFaulted t.exuStatus = false) (r : DecodeRecord) :
    AboutToRun is (t.appendDlog r) := by
  obtain ⟨hu, hr, hstream⟩ := h
  refine ⟨?_, (exec_exuStatus_of_not_faulted he hf).trans hr, ?_⟩
  · rw [exec_frame he]
    exact hu
  · rw [exec_frame he]
    calc s.stream.drop (s.pc + 5)
        = (s.stream.drop s.pc).drop 5 := List.drop_drop.symm
      _ = (streamOfWords ((i :: is).map encode)).drop 5 := by rw [hstream]
      _ = streamOfWords (is.map encode) := rfl

/-- A fault freezes the run. -/
theorem AboutToRun.run_of_faulted {i : Instr} {is : List Instr} {s t : State} (h : AboutToRun (i :: is) s)
    (he : exec i s.advancePc = .next t) (hf : isFaulted t.exuStatus = true) (k : Nat) :
    Sys2Proof.core.run k t = .next t := by
  refine terminalStatesAreNeverLeft t k (.inl ⟨?_, fun hr => ?_⟩)
  · rw [exec_frame he]
    exact h.activeUnit
  · rw [hr] at hf
    cases hf

/-- One step for each instruction and one for the halt do the instructions in order: each step does one instruction on the
same data, and a fault ends both. -/
theorem run_executes {is : List Instr} {s s' : State} (h : AboutToRun is s) (hs : SameData s s')
    (his : ∀ i ∈ is, i.canonical = true) :
    ∃ v, Sys2Proof.core.run (is.length + 1) s = .next v ∧ EndsAs v (execInOrder is s') := by
  induction is generalizing s s' with
  | nil =>
    refine ⟨s.halt, run_succ h.step_nil 0, hs.mem, hs.trace, ?_⟩
    simp [execInOrder, ← hs.exuStatus, h.running, isFaulted]
  | cons i is ih =>
    obtain ⟨hi, his⟩ := List.forall_mem_cons.1 his
    obtain ⟨t, t', he, he', ht⟩ := SameData.after_exec (s := s.advancePc) ⟨hs.mem, hs.trace, hs.exuStatus⟩ i
    have hstep := h.step_cons hi
    rw [he] at hstep
    rw [execInOrder_cons he', List.length_cons, ← ht.exuStatus]
    cases hf : isFaulted t.exuStatus with
    | true =>
      rw [logAfter_faulted hf] at hstep
      rw [run_succ hstep]
      exact ⟨t, h.run_of_faulted he hf _, ht.mem, ht.trace, by simp [← ht.exuStatus, hf]⟩
    | false =>
      rw [logAfter_running hf] at hstep
      rw [run_succ hstep]
      exact ih (h.rest he hf _) ⟨ht.mem, ht.trace, ht.exuStatus⟩ his

/-- Settles O57: the encoding run commits the stream of the instructions' words, and the execution run over it does them in
order. -/
theorem encodedProgramRunsItsInstructions : Obligations.EncodedProgramRunsItsInstructions := by
  intro s is first last his
  obtain ⟨t, ht, hout⟩ := run_encodes (s := s.encReset (is.map sourceLine)) rfl rfl rfl his
  have hstart : AboutToRun is (t.exuReset (streamOfWords (is.map encode)) first last) := ⟨rfl, rfl, rfl⟩
  obtain ⟨v, hv, hend⟩ := run_executes hstart ⟨rfl, rfl, rfl⟩ his
  exact ⟨t, _, v, ht, handOver_of_some hout first last, hv, hend⟩

end Sys2Proof.Machine
end

section
/-! PROOFS. The two encodings (spec/30_encoding.md): the fields of a word and of its bytes as numbers, decode after
encode, the ignored bits, the words and instructions ENC cannot write, and the words it can. -/

namespace Sys2Proof.Machine

/-! ### Words and bytes as numbers (R47, R96) -/

/-- A word is the little-endian number of its five bytes. -/
theorem wordOfBytes_toNat (x : WordBytes) :
    (wordOfBytes x).toNat = x.b0.toNat + 2 ^ 8 * x.b1.toNat + 2 ^ 16 * x.b2.toNat + 2 ^ 24 * x.b3.toNat +
      2 ^ 32 * x.b4.toNat := by
  have h0 := x.b0.isLt
  have h1 := x.b1.isLt
  have h2 := x.b2.isLt
  have h3 := x.b3.isLt
  simp only [wordOfBytes, BitVec.toNat_append]
  rw [← Nat.shiftLeft_add_eq_or_of_lt h3, ← Nat.shiftLeft_add_eq_or_of_lt h2, ← Nat.shiftLeft_add_eq_or_of_lt h1,
    ← Nat.shiftLeft_add_eq_or_of_lt h0]
  simp only [Nat.shiftLeft_eq]
  omega

/-- DEC's outputs for a word, as arithmetic on it. -/
theorem decode_bytesOfWord (w : Word) :
    decode (bytesOfWord w) = ⟨w.toNat % 128, w.toNat / 128 % 128, w.toNat / 16384 % 16384,
      (mnemonicOfOpcode (w.toNat % 128)).isSome⟩ := by
  simp only [decode, wordOfBytes_bytesOfWord, opcodeField_eq, operandBField_eq, operandCField_eq]

theorem mnemonicOfOpcode_isSome {a : Nat} :
    (mnemonicOfOpcode a).isSome = true ↔ a = 4 ∨ a = 18 ∨ a = 44 ∨ a = 121 := by
  simp only [Option.isSome_iff_exists, mnemonicOfOpcode_eq_some]
  constructor
  · rintro ⟨m, rfl⟩
    cases m <;> decide
  · rintro (rfl | rfl | rfl | rfl)
    · exact ⟨.mod, rfl⟩
    · exact ⟨.readMem, rfl⟩
    · exact ⟨.writeMem, rfl⟩
    · exact ⟨.loadConst, rfl⟩

/-! ### Decode after encode (R47, R51) -/

/-- A word decodes to the one well-formed instruction whose format D it holds in its lowest 28 bits. -/
theorem decodeWord_eq_ok {w : Word} {i : Instr} :
    decodeWord w = .ok i ↔
      i.wf = true ∧ w.toNat % 2 ^ 28 = opc i.mnemonic + 128 * i.opB + 16384 * i.opC := by
  have hA := opc_lt i.mnemonic
  rw [decodeWord, decodeInstr_eq_ok, wordOfBytes_bytesOfWord, opcodeField_eq, operandBField_eq, operandCField_eq,
    Instr.wf_iff]
  omega

theorem decodeWord_encode {i : Instr} (hi : i.wf = true) : decodeWord (encode i) = .ok i := by
  obtain ⟨hB, hC⟩ := i.wf_iff.1 hi
  have hA := opc_lt i.mnemonic
  rw [decodeWord_eq_ok, encode_toNat hi]
  exact ⟨hi, by omega⟩

/-- The byte decoder reads the first word, whatever follows it (R58). -/
theorem decodeBytes_listOfBytes (w : Word) (rest : List Byte) :
    decodeBytes (listOfBytes (bytesOfWord w) ++ rest) = decodeWord w := by
  rw [decodeBytes, firstWord_listOfBytes]
  rfl

theorem decodeTableWord_of_decodeWord {w : Word} {i : Instr} (h : decodeWord w = .ok i) :
    decodeTableWord 40 w.toNat = some i := by
  have hw : BitVec.ofNat Config.wordBits (w.toNat % 2 ^ 40) = w := by
    rw [Nat.mod_eq_of_lt w.isLt, BitVec.ofNat_toNat, BitVec.setWidth_eq]
  have hd : decodeBytes (listOfBytes (bytesOfWord w)) = .ok i := by
    rw [← List.append_nil (listOfBytes _), decodeBytes_listOfBytes, h]
  rw [decodeTableWord, hw, hd]

/-- Settles O37: the lowest 28 bits of the encoded word are format D of the instruction. -/
theorem decodeInvertsEncode : Obligations.DecodeInvertsEncode := by
  intro i hi
  have h := decodeWord_encode hi
  exact ⟨h, fun rest => (decodeBytes_listOfBytes _ rest).trans h, decodeTableWord_of_decodeWord h⟩

/-! ### The ignored bits (R54, R103) -/

theorem decode_bytesOfWord_congr {w₁ w₂ : Word} (h : w₁.toNat % 2 ^ 28 = w₂.toNat % 2 ^ 28) :
    decode (bytesOfWord w₁) = decode (bytesOfWord w₂) := by
  have hA : w₁.toNat % 128 = w₂.toNat % 128 := by omega
  have hB : w₁.toNat / 128 % 128 = w₂.toNat / 128 % 128 := by omega
  have hC : w₁.toNat / 16384 % 16384 = w₂.toNat / 16384 % 16384 := by omega
  rw [decode_bytesOfWord, decode_bytesOfWord, hA, hB, hC]

/-- The decoded fields of a decode log, without the raw bytes. -/
def loggedFields (l : List DecodeRecord) : List (Nat × Nat × Nat) := l.map fun r => (r.A, r.B, r.C)

/-- Two states of the executor that differ, as far as a run goes, in the raw bytes of the decode log only. -/
structure SameButRawBytes (s s' : State) : Prop extends SameData s s' where
  pc : s.pc = s'.pc
  fields : loggedFields s.dlog = loggedFields s'.dlog

theorem SameButRawBytes.appendDlog {s s' : State} (h : SameButRawBytes s s') {x x' : WordBytes}
    (hd : decode x = decode x') :
    SameButRawBytes (s.appendDlog (decodeRecord x)) (s'.appendDlog (decodeRecord x')) := by
  refine ⟨⟨h.mem, h.trace, h.exuStatus⟩, h.pc, ?_⟩
  simpa [loggedFields, decodeRecord, hd] using h.fields

/-- Logging after the operation of a word keeps two states alike: both have faulted, or both log the same fields. -/
theorem SameButRawBytes.logAfter {s s' : State} (h : SameButRawBytes s s') {x x' : WordBytes}
    (hd : decode x = decode x') :
    ∃ t t', Machine.logAfter x (.next s) = .next t ∧ Machine.logAfter x' (.next s') = .next t' ∧
      SameButRawBytes t t' := by
  cases hf : isFaulted s.exuStatus with
  | true => exact ⟨s, s', logAfter_faulted hf, logAfter_faulted (h.exuStatus ▸ hf), h⟩
  | false => exact ⟨_, _, logAfter_running hf, logAfter_running (h.exuStatus ▸ hf), h.appendDlog hd⟩

theorem SameButRawBytes.after_exec {s s' : State} (h : SameButRawBytes s s') (i : Instr) :
    ∃ t t', exec i s = .next t ∧ exec i s' = .next t' ∧ SameButRawBytes t t' := by
  obtain ⟨t, t', he, he', hdata⟩ := h.toSameData.after_exec i
  refine ⟨t, t', he, he', hdata, ?_, ?_⟩
  · rw [exec_frame he, exec_frame he']
    exact h.pc
  · rw [exec_frame he, exec_frame he']
    exact h.fields

theorem decodeInstr_congr {x x' : WordBytes} (hd : decode x = decode x') : decodeInstr x = decodeInstr x' := by
  rw [decodeInstr, decodeInstr, hd]

/-- Two words that DEC reads alike are run alike. -/
theorem SameButRawBytes.runWord {s s' : State} (h : SameButRawBytes s s') {x x' : WordBytes}
    (hd : decode x = decode x') :
    ∃ t t', Machine.runWord x s = .next t ∧ Machine.runWord x' s' = .next t' ∧ SameButRawBytes t t' := by
  have hi := decodeInstr_congr hd
  cases hx : decodeInstr x with
  | error r =>
    exact ⟨_, _, by rw [Machine.runWord, hx], by rw [Machine.runWord, ← hi, hx], h.appendDlog hd⟩
  | ok i =>
    obtain ⟨u, u', he, he', hu⟩ := h.after_exec i
    rw [runWord_ok hx, runWord_ok (hi ▸ hx), he, he']
    exact hu.logAfter hd

/-- The step after a word is placed runs that word. -/
theorem step_placeWord (s : State) (w : Word) :
    step (s.placeWord w) = runWord (bytesOfWord w) (s.placeWord w).advancePc := by
  have hf : fetch (s.placeWord w).stream (s.placeWord w).pc = some (bytesOfWord w) := fetch_placeWord s w
  rw [step_exu rfl, exuStep_fetched rfl hf]

/-- Settles O32: no output of DEC depends on bits 39 to 28, and words that DEC reads alike are run alike. -/
theorem ignoredBitsChangeNoExecution : Obligations.IgnoredBitsChangeNoExecution := by
  intro w₁ w₂ hw
  have hd := decode_bytesOfWord_congr hw
  refine ⟨hd, fun s t₁ t₂ h₁ h₂ => ?_⟩
  have hstart : SameButRawBytes (s.placeWord w₁).advancePc (s.placeWord w₂).advancePc := ⟨⟨rfl, rfl, rfl⟩, rfl, rfl⟩
  obtain ⟨u₁, u₂, hu₁, hu₂, hsame⟩ := hstart.runWord hd
  cases h₁.symm.trans ((step_placeWord s w₁).trans hu₁)
  cases h₂.symm.trans ((step_placeWord s w₂).trans hu₂)
  exact ⟨hsame.pc, hsame.mem, hsame.trace, hsame.exuStatus, hsame.fields⟩

/-! ### The instructions ENC cannot write (R55) -/

theorem wf_of_decodeInstr {x : WordBytes} {i : Instr} (h : decodeInstr x = .ok i) : i.wf = true := by
  obtain ⟨-, hB, hC⟩ := decodeInstr_eq_ok.1 h
  exact i.wf_iff.2 ⟨hB ▸ operandBField_lt _, hC ▸ operandCField_lt _⟩

/-- A well-formed instruction ENC cannot write is one whose OperandC is wider than its mnemonic's field. -/
theorem encWidthC_le_opC {i : Instr} (hwf : i.wf = true) (hc : i.canonical = false) :
    2 ^ encWidthC i.mnemonic ≤ i.opC := by
  obtain ⟨hB, -⟩ := i.wf_iff.1 hwf
  by_contra hlt
  rw [i.canonical_iff.2 ⟨hB, by omega⟩] at hc
  cases hc

/-- LOAD_CONST's field at ENC is as wide as DEC's, so ENC can write every well-formed LOAD_CONST. -/
theorem mnemonic_ne_loadConst_of_not_canonical {i : Instr} (hwf : i.wf = true) (hc : i.canonical = false) :
    i.mnemonic ≠ .loadConst := by
  intro hm
  have hwide := encWidthC_le_opC hwf hc
  obtain ⟨-, hC⟩ := i.wf_iff.1 hwf
  rw [hm] at hwide
  exact absurd hC (Nat.not_lt.2 hwide)

/-- Every instruction but LOAD_CONST checks the address OperandC first (R110). -/
theorem firstOffending_opC {i : Instr} (hm : i.mnemonic ≠ .loadConst) (hc : 50 ≤ i.opC) (s : State) :
    firstOffending i s = some i.opC := by
  have hused : ∃ rest, usedAddresses i s = i.opC :: rest := by
    cases i with
    | loadConst => exact absurd rfl hm
    | readMem | writeMem | mod => exact ⟨_, rfl⟩
  obtain ⟨rest, hused⟩ := hused
  rw [firstOffending, hused, List.find?_cons_of_pos (by simpa using hc)]

/-- The fields of ENC have at least 7 bits. -/
theorem two_pow_encWidthC_ge (m : Mnemonic) : 128 ≤ 2 ^ encWidthC m := by cases m <;> decide

/-- Settles O33: an OperandC that ENC cannot write is at least 128, and its check comes first. -/
theorem nonCanonicalOperandAlwaysFaults : Obligations.NonCanonicalOperandAlwaysFaults := by
  intro s x i hu hr hf hd hc
  have hwf := wf_of_decodeInstr hd
  have hm := mnemonic_ne_loadConst_of_not_canonical hwf hc
  have hwide := encWidthC_le_opC hwf hc
  have hmin := two_pow_encWidthC_ge i.mnemonic
  exact ⟨hm, step_of_firstOffending hu hr hf hd (firstOffending_opC hm (by omega) s)⟩

/-! ### The table's MATCH and MASK (R62) -/

theorem toNat_and_tableMask (w : Word) : (w &&& tableMask).toNat = w.toNat % 128 :=
  (BitVec.toNat_and ..).trans (Nat.and_two_pow_sub_one_eq_mod w.toNat 7)

theorem tableMatch_toNat (m : Mnemonic) : (tableMatch m).toNat = opc m := by cases m <;> rfl

/-- A word matches a row of the table exactly when its opcode field is the row's opcode. -/
theorem and_tableMask_eq_tableMatch {w : Word} {m : Mnemonic} :
    w &&& tableMask = tableMatch m ↔ opcodeField w = opc m := by
  rw [← BitVec.toNat_inj, toNat_and_tableMask, tableMatch_toNat, opcodeField_eq]

/-- The opcode alone decides the mnemonic of the instruction a word decodes to (R109). -/
theorem exists_decodeWord_eq_ok {w : Word} {m : Mnemonic} :
    (∃ i, decodeWord w = .ok i ∧ i.mnemonic = m) ↔ opcodeField w = opc m := by
  simp only [decodeWord, decodeInstr_eq_ok, wordOfBytes_bytesOfWord]
  constructor
  · rintro ⟨i, ⟨hA, -⟩, rfl⟩
    exact hA
  · intro hA
    exact ⟨.ofMnemonic m (operandBField w) (operandCField w), by simpa using hA, Instr.ofMnemonic_mnemonic ..⟩

theorem decodeWord_of_no_mnemonic {w : Word} (h : ∀ m, opcodeField w ≠ opc m) :
    decodeWord w = .error (.unrecognisedOpcode (w.toNat % 128)) := by
  rw [decodeWord, decodeInstr_eq_error, wordOfBytes_bytesOfWord, ← opcodeField_eq]
  exact ⟨Option.eq_none_iff_forall_ne_some.2 fun m hm => h m (mnemonicOfOpcode_eq_some.1 hm), rfl⟩

/-- Settles O35: MASK selects the opcode field, and MATCH is the opcode. -/
theorem tableMatchSelectsTheInstruction : Obligations.TableMatchSelectsTheInstruction := by
  refine fun w => ⟨fun m => and_tableMask_eq_tableMatch.trans exists_decodeWord_eq_ok.symm, fun h => ?_⟩
  exact decodeWord_of_no_mnemonic fun m hm => h m (and_tableMask_eq_tableMatch.2 hm)

/-! ### The words ENC can write (R52, R89) -/

/-- ENC's words are those of the canonical instructions, each from the instruction's own line. -/
theorem encodeWord_eq_word {token : String} {b c : Nat} {m : Mnemonic} {w : Word} :
    encodeWord token b c = .word m w ↔
      ∃ i : Instr, i.canonical = true ∧ sourceLine i = .instr token b c ∧ i.mnemonic = m ∧ encode i = w := by
  constructor
  · intro h
    rcases encodeWord_cases token b c with ⟨e, he⟩ | ⟨m', rfl, hb, hc, -⟩
    · cases he.symm.trans h
    · obtain ⟨i, rfl, rfl, rfl⟩ : ∃ i : Instr, i.mnemonic = m' ∧ i.opB = b ∧ i.opC = c := ⟨.ofMnemonic m' b c, by simp⟩
      have hi := i.canonical_iff.2 ⟨hb, hc⟩
      cases (encodeWord_of_canonical hi).symm.trans h
      exact ⟨i, hi, rfl, rfl, rfl⟩
  · rintro ⟨i, hi, hline, rfl, rfl⟩
    cases hline
    exact encodeWord_of_canonical hi

/-- A word is ENC's exactly when a canonical instruction encodes to it. -/
theorem exists_encodeWord_eq_word {w : Word} :
    (∃ token b c m, encodeWord token b c = .word m w) ↔ ∃ i : Instr, i.canonical = true ∧ encode i = w := by
  simp only [encodeWord_eq_word]
  constructor
  · rintro ⟨token, b, c, m, i, hi, -, -, hw⟩
    exact ⟨i, hi, hw⟩
  · rintro ⟨i, hi, hw⟩
    exact ⟨_, _, _, _, i, hi, rfl, rfl, hw⟩

/-- Distinct canonical instructions have distinct words, since DEC tells them apart. -/
theorem encode_injective_of_canonical {i j : Instr} (hi : i.canonical = true) (hj : j.canonical = true)
    (h : encode i = encode j) : i = j := by
  have hdi := decodeInstr_encode hi
  rw [h, decodeInstr_encode hj] at hdi
  cases hdi
  rfl

/-- The canonical instruction of a word, written out as its number. -/
theorem exists_encode_eq {w : Word} :
    (∃ i : Instr, i.canonical = true ∧ encode i = w) ↔
      ∃ m b c, b ≤ 127 ∧ c < 2 ^ encWidthC m ∧ w.toNat = opc m + 2 ^ 7 * b + 2 ^ 14 * c := by
  constructor
  · rintro ⟨i, hi, rfl⟩
    obtain ⟨hB, hC⟩ := i.canonical_iff.1 hi
    exact ⟨i.mnemonic, i.opB, i.opC, by omega, hC, encode_toNat_of_canonical hi⟩
  · rintro ⟨m, b, c, hb, hc, hw⟩
    have hi : (Instr.ofMnemonic m b c).canonical = true := by
      rw [Instr.canonical_iff]
      simpa using ⟨by omega, hc⟩
    refine ⟨_, hi, BitVec.eq_of_toNat_eq ?_⟩
    rw [encode_toNat_of_canonical hi, hw]
    simp

/-- The word of a canonical instruction uses the lowest 28 bits only and holds an opcode, which is not 0. -/
theorem encode_bounds {i : Instr} (hi : i.canonical = true) : 0 < (encode i).toNat ∧ (encode i).toNat < 2 ^ 28 := by
  obtain ⟨-, -, -, hwf⟩ := Laws.TableRow.of_instr i
  obtain ⟨hB, hC⟩ := i.wf_iff.1 (hwf hi)
  have hA := opc_lt i.mnemonic
  have hpos : 0 < opc i.mnemonic := by cases i.mnemonic <;> decide
  rw [encode_toNat_of_canonical hi]
  omega

theorem bytesOfWord_b3_toNat (w : Word) : (bytesOfWord w).b3.toNat = w.toNat / 2 ^ 24 % 2 ^ 8 := by
  simp [bytesOfWord, BitVec.extractLsb'_toNat, Nat.shiftRight_eq_div_pow]

theorem bytesOfWord_b4_toNat (w : Word) : (bytesOfWord w).b4.toNat = w.toNat / 2 ^ 32 % 2 ^ 8 := by
  simp [bytesOfWord, BitVec.extractLsb'_toNat, Nat.shiftRight_eq_div_pow]

/-- Settles O53: ENC's words are those of the canonical instructions, which DEC tells apart and whose fields end at
bit 27. -/
theorem encoderWordsAreTheCanonicalWords : Obligations.EncoderWordsAreTheCanonicalWords := by
  refine ⟨fun w => exists_encodeWord_eq_word.trans exists_encode_eq, ?_, ?_⟩
  · intro t₁ t₂ b₁ c₁ b₂ c₂ m₁ m₂ w h₁ h₂
    obtain ⟨i, hi, hline, -, rfl⟩ := encodeWord_eq_word.1 h₁
    obtain ⟨j, hj, hline', -, hw⟩ := encodeWord_eq_word.1 h₂
    cases encode_injective_of_canonical hj hi hw
    cases hline.symm.trans hline'
    exact ⟨rfl, rfl, rfl⟩
  · intro token b c m w h
    obtain ⟨i, hi, -, -, rfl⟩ := encodeWord_eq_word.1 h
    obtain ⟨hpos, hlt⟩ := encode_bounds hi
    refine ⟨hlt, fun h0 => ?_, BitVec.eq_of_toNat_eq ?_, ?_⟩
    · rw [h0] at hpos
      exact absurd hpos (by decide)
    · rw [bytesOfWord_b4_toNat, Nat.div_eq_of_lt (by omega)]
      rfl
    · rw [bytesOfWord_b3_toNat]
      omega

/-! ### How many there are (R52) -/

/-- The canonical instructions, as a mnemonic with an operand for each of its two fields. -/
def canonicalInstrEquiv :
    (Σ m : Mnemonic, Fin 128 × Fin (2 ^ encWidthC m)) ≃ { i : Instr // i.canonical = true } where
  toFun := fun ⟨m, b, c⟩ => ⟨.ofMnemonic m b c, by simp [Instr.canonical_iff]⟩
  invFun := fun ⟨i, hi⟩ => ⟨i.mnemonic, ⟨i.opB, (i.canonical_iff.1 hi).1⟩, ⟨i.opC, (i.canonical_iff.1 hi).2⟩⟩
  left_inv := by rintro ⟨m, b, c⟩; cases m <;> rfl
  right_inv := fun ⟨i, _⟩ => Subtype.ext i.ofMnemonic_self

/-- The four mnemonics as a finite type. -/
@[reducible] def mnemonicFintype : Fintype Mnemonic where
  elems := {.loadConst, .readMem, .writeMem, .mod}
  complete m := by cases m <;> decide

theorem card_canonicalInstr : Nat.card { i : Instr // i.canonical = true } = 2195456 := by
  let := mnemonicFintype
  rw [← Nat.card_congr canonicalInstrEquiv, Nat.card_sigma]
  simp only [Nat.card_prod, Nat.card_fin]
  rfl

/-- Encoding is a bijection of the canonical instructions with the words of ENC. -/
theorem card_encoderWords :
    Nat.card { w : Word // ∃ token b c m, encodeWord token b c = .word m w } =
      Nat.card { i : Instr // i.canonical = true } := by
  simp only [exists_encodeWord_eq_word]
  refine (Nat.card_congr (.ofBijective (fun i => ⟨encode i.1, i.1, i.2, rfl⟩) ⟨?_, ?_⟩)).symm
  · intro i j h
    exact Subtype.ext (encode_injective_of_canonical i.2 j.2 (congrArg Subtype.val h))
  · rintro ⟨_, i, hi, rfl⟩
    exact ⟨⟨i, hi⟩, rfl⟩

/-- Settles O54: one word for each canonical instruction, 128 values of OperandB times `2 ^ W` of OperandC. -/
theorem canonicalWordCount : Obligations.CanonicalWordCount :=
  card_encoderWords.trans card_canonicalInstr

/-! ### The byte view (R47, R61) -/

/-- Settles O30: DEC's fields are slices of the little-endian number of the five bytes. -/
theorem decoderReadsOneFixedLayout : Obligations.DecoderReadsOneFixedLayout := by
  intro x
  have hw := wordOfBytes_toNat x
  have h0 := x.b0.isLt
  have h1 := x.b1.isLt
  have h2 := x.b2.isLt
  have h3 := x.b3.isLt
  refine ⟨?_, ?_, ?_, mnemonicOfOpcode_isSome⟩
  · have hA : (decode x).A = (wordOfBytes x).toNat % 128 := opcodeField_eq _
    omega
  · have hB : (decode x).B = (wordOfBytes x).toNat / 128 % 128 := operandBField_eq _
    omega
  · have hC : (decode x).C = (wordOfBytes x).toNat / 16384 % 16384 := operandCField_eq _
    omega

/-- Settles O34: from the byte view; a defined opcode leaves the low bit of OperandB to choose. -/
theorem firstByteHoldsOpcodeAndLowBitOfB : Obligations.FirstByteHoldsOpcodeAndLowBitOfB := by
  intro x
  obtain ⟨hA, hB, -, hknown⟩ := decoderReadsOneFixedLayout x
  have h0 := x.b0.isLt
  have hfirst : x.b0.toNat = (decode x).A + 128 * ((decode x).B % 2) := by omega
  refine ⟨hfirst, fun hk => ?_⟩
  simp only [List.mem_cons, List.not_mem_nil, or_false, ← BitVec.toNat_inj, BitVec.toNat_ofNat]
  rcases hknown.1 hk with h | h | h | h <;> omega

/-- Settles O36: the model decodes these words by evaluation. -/
theorem wordsFromTheEncodingTablesDecode : Obligations.WordsFromTheEncodingTablesDecode :=
  ⟨rfl, rfl, rfl, rfl, rfl, rfl⟩

end Sys2Proof.Machine
end

section
/-! PROOFS. The field packer (spec/40_field_packer.md): the three answers of PACK, the accumulation as a sum of shifted
fields, and the three statements about PACK. -/

namespace Sys2Proof.Machine

/-! ### What PACK answers (R66, R69) -/

/-- Every value fits its width: the overflow test passes (R66). -/
def FieldsFit (fields : List PackField) : Prop := ∀ f ∈ fields, f.value < 2 ^ f.width

theorem fieldsFit_cons {f : PackField} {rest : List PackField} :
    FieldsFit (f :: rest) ↔ f.value < 2 ^ f.width ∧ FieldsFit rest := List.forall_mem_cons

theorem anyOverflow_iff {fields : List PackField} :
    anyOverflow fields = true ↔ ∃ f ∈ fields, 2 ^ f.width ≤ f.value := by
  simp only [anyOverflow, List.any_eq_true, fieldOverflows_iff]

theorem not_anyOverflow_iff {fields : List PackField} : ¬ anyOverflow fields = true ↔ FieldsFit fields := by
  simp only [anyOverflow_iff, FieldsFit, not_exists, not_and, not_le]

theorem pack_of_tooWide {fields : List PackField} (h : 40 < totalWidth fields) :
    pack fields = .refused (.fieldListTooWide (totalWidth fields)) := if_pos h

/-- In PACK's domain only the overflow test decides. -/
theorem pack_of_totalWidth_le {fields : List PackField} (h : totalWidth fields ≤ 40) :
    pack fields = if anyOverflow fields then .fieldOverflow else .word (BitVec.ofNat 40 (accumulate fields)) :=
  if_neg h.not_gt

theorem pack_of_fieldsFit {fields : List PackField} (h : totalWidth fields ≤ 40) (hfit : FieldsFit fields) :
    pack fields = .word (BitVec.ofNat 40 (accumulate fields)) := by
  rw [pack_of_totalWidth_le h, if_neg (not_anyOverflow_iff.2 hfit)]

/-- A list that packs to a word is in PACK's domain and passes the overflow test. -/
theorem totalWidth_le_and_fieldsFit_of_pack {fields : List PackField} {w : Word} (h : pack fields = .word w) :
    totalWidth fields ≤ 40 ∧ FieldsFit fields := by
  by_cases hw : totalWidth fields ≤ 40
  · refine ⟨hw, not_anyOverflow_iff.1 fun ho => ?_⟩
    rw [pack_of_totalWidth_le hw, if_pos ho] at h
    cases h
  · rw [pack_of_tooWide (not_le.1 hw)] at h
    cases h

/-- Settles O39: the domain test, then the overflow test, are the only ways to fail. -/
theorem packFailsExactlyOnOverflow : Obligations.PackFailsExactlyOnOverflow := by
  refine fun fields => ⟨pack_of_tooWide, fun h => ?_, fun h r => ?_⟩
  · rw [pack_of_totalWidth_le h, ← anyOverflow_iff]
    cases anyOverflow fields <;> simp
  · rw [pack_of_totalWidth_le h]
    cases anyOverflow fields <;> simp

/-! ### The accumulation (R67) -/

theorem totalWidth_cons (f : PackField) (rest : List PackField) :
    totalWidth (f :: rest) = f.width + totalWidth rest := rfl

/-- The OR never overlaps, so it adds. -/
theorem accumulate_cons {f : PackField} (rest : List PackField) (hf : f.value < 2 ^ f.width) :
    accumulate (f :: rest) = f.value + 2 ^ f.width * accumulate rest := by
  rw [accumulate, ← Nat.shiftLeft_add_eq_or_of_lt hf, Nat.shiftLeft_eq, Nat.add_comm, Nat.mul_comm]

theorem accumulate_cons_mod {f : PackField} (rest : List PackField) (hf : f.value < 2 ^ f.width) :
    accumulate (f :: rest) % 2 ^ f.width = f.value := by
  rw [accumulate_cons rest hf, Nat.add_mul_mod_self_left, Nat.mod_eq_of_lt hf]

theorem accumulate_cons_div {f : PackField} (rest : List PackField) (hf : f.value < 2 ^ f.width) :
    accumulate (f :: rest) / 2 ^ f.width = accumulate rest := by
  rw [accumulate_cons rest hf, Nat.add_mul_div_left _ _ (Nat.two_pow_pos _), Nat.div_eq_of_lt hf, Nat.zero_add]

theorem accumulate_lt {fields : List PackField} (hfit : FieldsFit fields) :
    accumulate fields < 2 ^ totalWidth fields := by
  induction fields with
  | nil => exact Nat.one_pos
  | cons f rest ih =>
    obtain ⟨hf, hrest⟩ := fieldsFit_cons.1 hfit
    rw [totalWidth_cons, Nat.pow_add, Nat.mul_comm, ← Nat.div_lt_iff_lt_mul (Nat.two_pow_pos _),
      accumulate_cons_div rest hf]
    exact ih hrest

/-- The bits from the total width of the first fields up are those of the fields after them. -/
theorem accumulate_append_div {before after : List PackField} (hfit : FieldsFit before) :
    accumulate (before ++ after) / 2 ^ totalWidth before = accumulate after := by
  induction before with
  | nil => exact Nat.div_one _
  | cons f rest ih =>
    obtain ⟨hf, hrest⟩ := fieldsFit_cons.1 hfit
    rw [totalWidth_cons, Nat.pow_add, ← Nat.div_div_eq_div_mul, List.cons_append, accumulate_cons_div _ hf]
    exact ih hrest

/-- With the widths fixed, the accumulation determines the values. -/
theorem eq_of_accumulate_eq {l m : List PackField} (hwidth : l.map (·.width) = m.map (·.width))
    (hl : FieldsFit l) (hm : FieldsFit m) (h : accumulate l = accumulate m) : l = m := by
  induction l generalizing m with
  | nil => exact (List.map_eq_nil_iff.1 hwidth.symm).symm
  | cons f l ih =>
    cases m with
    | nil => cases hwidth
    | cons g m =>
      obtain ⟨hw, hwidths⟩ : f.width = g.width ∧ l.map (·.width) = m.map (·.width) := List.cons.inj hwidth
      obtain ⟨hf, hl⟩ := fieldsFit_cons.1 hl
      obtain ⟨hg, hm⟩ := fieldsFit_cons.1 hm
      have hvalue : f.value = g.value := by
        rw [← accumulate_cons_mod l hf, h, hw, accumulate_cons_mod m hg]
      have hrest : accumulate l = accumulate m := by
        rw [← accumulate_cons_div l hf, h, hw, accumulate_cons_div m hg]
      have hfg : f = g := congrArg₂ PackField.mk hvalue hw
      rw [hfg, ih hwidths hl hm hrest]

/-! ### The word (R67, R69, R71) -/

/-- In PACK's domain the 40 bits of the word hold the whole accumulation. -/
theorem toNat_ofNat_accumulate {fields : List PackField} (h : totalWidth fields ≤ 40) (hfit : FieldsFit fields) :
    (BitVec.ofNat 40 (accumulate fields)).toNat = accumulate fields := by
  rw [BitVec.toNat_ofNat, Nat.mod_eq_of_lt]
  exact (accumulate_lt hfit).trans_le (Nat.pow_le_pow_right Nat.two_pos h)

/-- Settles O40: dividing by `2 ^ o` drops the fields before, and the remainder drops those after. -/
theorem packPlacesEveryField : Obligations.PackPlacesEveryField := by
  intro fields h hfit
  refine ⟨_, pack_of_fieldsFit h hfit, ?_⟩
  rw [toNat_ofNat_accumulate h hfit]
  refine ⟨accumulate_lt hfit, ?_⟩
  rintro before f after rfl
  obtain ⟨hbefore, hafter⟩ := List.forall_mem_append.1 hfit
  rw [accumulate_append_div hbefore, accumulate_cons_mod after (fieldsFit_cons.1 hafter).1]

/-- The word PACK answers, read as a number, is the accumulation. -/
theorem toNat_of_pack {fields : List PackField} {w : Word} (h : pack fields = .word w) :
    w.toNat = accumulate fields := by
  obtain ⟨hw, hfit⟩ := totalWidth_le_and_fieldsFit_of_pack h
  cases h.symm.trans (pack_of_fieldsFit hw hfit)
  exact toNat_ofNat_accumulate hw hfit

/-- Settles O41: equal words are equal accumulations, and the widths are the same. -/
theorem packIsInjectiveOnValues : Obligations.PackIsInjectiveOnValues :=
  fun _ _ _ hwidth hf hg =>
    eq_of_accumulate_eq hwidth (totalWidth_le_and_fieldsFit_of_pack hf).2 (totalWidth_le_and_fieldsFit_of_pack hg).2
      ((toNat_of_pack hf).symm.trans (toNat_of_pack hg))

end Sys2Proof.Machine
end

section
/-! PROOFS. The encoder (spec/41_encoder.md): what ENC answers for a token, what one line and the end of the text do, the
bytes of a stream of words, and whole encoding runs. -/

namespace Sys2Proof.Machine

/-! ### What ENC answers for a token (R77 to R82, R85, R90) -/

theorem ofMnemonic_canonical_iff {m : Mnemonic} {b c : Nat} :
    (Instr.ofMnemonic m b c).canonical = true ↔ b < 128 ∧ c < 2 ^ encWidthC m := by
  simp [Instr.canonical_iff]

/-- A token that spells a mnemonic can fail on its operands only. -/
theorem encodeWord_text (m : Mnemonic) (b c : Nat) :
    encodeWord m.text b c =
      if b < 128 ∧ c < 2 ^ encWidthC m then .word m (encode (.ofMnemonic m b c)) else .failed .fieldOverflow := by
  by_cases h : b < 128 ∧ c < 2 ^ encWidthC m
  · rw [if_pos h]
    simpa using encodeWord_of_canonical (ofMnemonic_canonical_iff.2 h)
  · simp only [encodeWord, mnemonicOfText_text, pack_fieldList, if_neg h]

theorem encodeWord_eq_unknownCommand {token : String} {b c : Nat} :
    encodeWord token b c = .failed (.unknownCommand token) ↔ ∀ m : Mnemonic, token ≠ m.text := by
  constructor
  · rintro h m rfl
    rw [encodeWord_text] at h
    split at h <;> cases h
  · intro h
    have hm : mnemonicOfText token = none :=
      Option.eq_none_iff_forall_ne_some.2 fun m hm => h m (mnemonicOfText_eq_some.1 hm)
    simp only [encodeWord, hm]

/-- Settles O43: the four mnemonics' texts are the only ones that spell a mnemonic. -/
theorem otherTokensAreUnknownCommands : Obligations.OtherTokensAreUnknownCommands := by
  refine fun token b c => encodeWord_eq_unknownCommand.trans ⟨fun h => ?_, ?_⟩
  · exact ⟨h .loadConst, h .readMem, h .writeMem, h .mod⟩
  · rintro ⟨hl, hr, hw, hm⟩ m
    cases m <;> assumption

/-- Settles O42: the opcode and the width are those of the table, and the word is that of format D. -/
theorem encodeWordGivesTheMnemonicsFormat : Obligations.EncodeWordGivesTheMnemonicsFormat := by
  intro m b c
  refine ⟨opc m, encWidthC m, by cases m <;> decide, fun hb hc => ?_, fun h => ?_⟩
  · refine ⟨_, (encodeWord_text m b c).trans (if_pos ⟨hb, hc⟩), ?_⟩
    simpa using encode_toNat_of_canonical (ofMnemonic_canonical_iff.2 ⟨hb, hc⟩)
  · exact (encodeWord_text m b c).trans (if_neg (by omega))

/-! ### One line and the end of the text (R75, R76, R83, R84) -/

section
variable {s : State} {token : String} {b c : Nat}

theorem encLine_of_word {m : Mnemonic} {w : Word} (hr : s.encStatus = .running)
    (h : encodeWord token b c = .word m w) :
    encLine token b c s = .next (s.appendEncoded w (assemblyRecord m token b c w)) := by
  simp only [encLine, hr, h]

theorem encLine_of_failed {e : EncError} (hr : s.encStatus = .running) (h : encodeWord token b c = .failed e) :
    encLine token b c s = .next (s.failEncoding e) := by
  simp only [encLine, hr, h]

theorem encLine_terminal (h : s.encStatus ≠ .running) : encLine token b c s = .next s := by
  cases he : s.encStatus with
  | running => exact absurd he h
  | failed e => simp only [encLine, he]
  | committed => simp only [encLine, he]

theorem encEnd_terminal (h : s.encStatus ≠ .running) : encEnd s = .next s := by
  cases he : s.encStatus with
  | running => exact absurd he h
  | failed e => simp only [encEnd, he]
  | committed => simp only [encEnd, he]

theorem step_line {rest : List SourceLine} (hu : s.activeUnit = .enc) (hr : s.encStatus = .running)
    (ht : s.sourceText = .instr token b c :: rest) : step s = encLine token b c (s.setSourceText rest) := by
  rw [step_enc hu]
  simp only [encStep, hr, ht]

theorem step_malformed {text : String} {rest : List SourceLine} (hu : s.activeUnit = .enc)
    (hr : s.encStatus = .running) (ht : s.sourceText = .malformed text :: rest) :
    step s = .refused (.malformedLine text) := by
  rw [step_enc hu]
  simp only [encStep, hr, ht]

theorem encResult_of_absent (h : s.binOut = none) : s.encResult = none := by
  simp only [State.encResult, h]

/-- A failed encoding run takes no further step. -/
theorem run_failEncoding (hu : s.activeUnit = .enc) (e : EncError) (k : Nat) :
    Sys2Proof.core.run k (s.failEncoding e) = .next (s.failEncoding e) :=
  terminalStatesAreNeverLeft _ k (.inr ⟨hu, by simp⟩)

end

/-- Settles O44: the line's turn is the append. -/
theorem successfulLineAppendsItsWord : Obligations.SuccessfulLineAppendsItsWord :=
  fun _ _ _ _ _ hr hw => encLine_of_word hr hw

/-- Settles O45: the failed state is terminal, and the failure leaves the absent outputs absent. -/
theorem failingLinePersistsNothing : Obligations.FailingLinePersistsNothing := by
  intro s token b c e hu hr hbin hlog he
  refine ⟨s.failEncoding e, encLine_of_failed hr he, rfl, fun k => ?_⟩
  exact ⟨_, run_failEncoding hu e k, rfl, hbin, hlog, encResult_of_absent hbin⟩

/-- Settles O46: each of the three transactions looks at the status first. -/
theorem encoderActsOnlyWhileRunning : Obligations.EncoderActsOnlyWhileRunning :=
  fun _ _ _ _ h => ⟨encLine_terminal h, encEnd_terminal h, fun hu => step_terminal (.inr ⟨hu, h⟩)⟩

/-- Settles O49: the encoder's turn refuses the line before ENC sees it. -/
theorem malformedLineIsRefused : Obligations.MalformedLineIsRefused :=
  fun _ _ _ => step_malformed

/-! ### The bytes of a stream of words (R32, R86, R89) -/

theorem length_streamOfWords (ws : List Word) : (streamOfWords ws).length = 5 * ws.length := by
  induction ws with
  | nil => rfl
  | cons w ws ih =>
    have hcons : (streamOfWords (w :: ws)).length = (streamOfWords ws).length + 5 := rfl
    rw [hcons, ih, List.length_cons, Nat.mul_succ]

theorem drop_streamOfWords (ws : List Word) (k : Nat) :
    (streamOfWords ws).drop (5 * k) = streamOfWords (ws.drop k) := by
  induction k generalizing ws with
  | zero => rfl
  | succ k ih =>
    cases ws with
    | nil => rfl
    | cons w ws => exact ih ws

/-- Five bytes a word: the fetch at offset `5 * k` gives word `k`. -/
theorem fetch_streamOfWords {ws : List Word} {k : Nat} {w : Word} (h : ws[k]? = some w) :
    fetch (streamOfWords ws) (5 * k) = some (bytesOfWord w) := by
  obtain ⟨hk, rfl⟩ := List.getElem?_eq_some_iff.1 h
  refine fetch_of_drop_eq (rest := streamOfWords (ws.drop (k + 1))) ?_
  rw [drop_streamOfWords, List.drop_eq_getElem_cons hk]
  rfl

/-- Settles O47: the commit is one step, and its stream is that of the pending words. -/
theorem commitPublishesBothOutputs : Obligations.CommitPublishesBothOutputs :=
  fun s hu hr ht => ⟨streamOfWords s.encWords, step_endOfText hu hr ht, length_streamOfWords _,
    fun _ _ => fetch_streamOfWords⟩

/-- Settles O48: the commit publishes the empty pending sequences, and the executor finds no word in the empty stream. -/
theorem emptyProgramCommitsEmptyOutputs : Obligations.EmptyProgramCommitsEmptyOutputs := by
  intro s first last
  have hcommit := step_endOfText (s := s.encReset []) rfl rfl rfl
  refine ⟨_, _, hcommit, rfl, rfl, handOver_of_some rfl first last, ?_, rfl, rfl⟩
  rw [step_exu rfl, exuStep_exhausted rfl rfl]
  rfl

/-- A pending word is the word of an instruction ENC can write. -/
theorem EncoderInv.exists_encode_eq {s : State} (hs : EncoderInv s) {k : Nat} {w : Word}
    (h : s.encWords[k]? = some w) : ∃ i : Instr, i.canonical = true ∧ encode i = w := by
  obtain ⟨-, hword, -⟩ := hs
  obtain ⟨i, hi, hw, -⟩ := hword k w h
  exact ⟨i, hi, BitVec.eq_of_toNat_eq ((encode_toNat_of_canonical hi).trans hw.symm)⟩

/-- The outputs are absent before the commit, so a stream that is there is that of the pending words. -/
theorem EncoderInv.eq_streamOfWords {s : State} (hs : EncoderInv s) {S : List Byte} (h : s.binOut = some S) :
    S = streamOfWords s.encWords := by
  have hc : s.encStatus = .committed := by
    by_contra hc
    cases h.symm.trans (hs.binOut_of_not_committed hc)
  exact Option.some.inj (h.symm.trans (hs.binOut_of_committed hc))

/-- Settles O56: the fetch at a multiple of 5 gives a pending word, and DEC recovers its instruction. -/
theorem committedStreamsHoldOnlyInstructions : Obligations.CommittedStreamsHoldOnlyInstructions := by
  intro s S hs hS
  obtain rfl := hs.eq_streamOfWords hS
  rw [length_streamOfWords]
  refine ⟨Nat.mul_mod_right _ _, fun k hk => ?_⟩
  have hword := List.getElem?_eq_getElem (Nat.lt_of_mul_lt_mul_left hk)
  obtain ⟨i, hi, hw⟩ := hs.exists_encode_eq hword
  exact ⟨_, i, fetch_streamOfWords hword, hw ▸ decodeInstr_encode hi, hi⟩

/-! ### Whole encoding runs (R76, R83 to R86) -/

/-- A line of the text: a token and its two operands. -/
abbrev Line := String × Nat × Nat

/-- The line as the front end hands it over. -/
def Line.toSource (l : Line) : SourceLine := .instr l.1 l.2.1 l.2.2

/-- ENC encodes the line to the word. -/
def Line.EncodesTo (l : Line) (w : Word) : Prop := ∃ m, encodeWord l.1 l.2.1 l.2.2 = .word m w

/-- The line of an instruction. -/
def lineOf (i : Instr) : Line := (i.mnemonic.text, i.opB, i.opC)

theorem toSource_comp_lineOf : Line.toSource ∘ lineOf = sourceLine := rfl

/-- The assembly-log record of an instruction's line. -/
def recordOf (i : Instr) : AssemblyRecord := assemblyRecord i.mnemonic i.mnemonic.text i.opB i.opC (encode i)

/-- The state in which the lines of `is` are encoded and `rest` is left of the text. -/
def State.afterLines (s : State) (is : List Instr) (rest : List SourceLine) : State :=
  { s with encWords := s.encWords ++ is.map encode, encLog := s.encLog ++ is.map recordOf, sourceText := rest }

theorem Line.EncodesTo.exists_instr {l : Line} {w : Word} (h : l.EncodesTo w) :
    ∃ i : Instr, i.canonical = true ∧ lineOf i = l ∧ encode i = w := by
  obtain ⟨token, b, c⟩ := l
  obtain ⟨m, hm⟩ := h
  obtain ⟨i, hi, hline, -, hw⟩ := encodeWord_eq_word.1 hm
  cases hline
  exact ⟨i, hi, rfl, hw⟩

/-- Lines that encode are the lines of a program ENC can write. -/
theorem exists_instrs_of_encodesTo {ls : List Line} {ws : List Word} (h : List.Forall₂ Line.EncodesTo ls ws) :
    ∃ is : List Instr, (∀ i ∈ is, i.canonical = true) ∧ is.map lineOf = ls ∧ is.map encode = ws := by
  induction h with
  | nil => exact ⟨[], by simp, rfl, rfl⟩
  | cons hlw _ ih =>
    obtain ⟨i, hi, rfl, rfl⟩ := hlw.exists_instr
    obtain ⟨is, his, rfl, rfl⟩ := ih
    exact ⟨i :: is, List.forall_mem_cons.2 ⟨hi, his⟩, rfl, rfl⟩

theorem exists_words_of_encode {ls : List Line} (h : ∀ l ∈ ls, ∃ m w, encodeWord l.1 l.2.1 l.2.2 = .word m w) :
    ∃ ws, List.Forall₂ Line.EncodesTo ls ws := by
  induction ls with
  | nil => exact ⟨[], .nil⟩
  | cons l ls ih =>
    obtain ⟨⟨m, w, hw⟩, hls⟩ := List.forall_mem_cons.1 h
    obtain ⟨ws, hws⟩ := ih hls
    exact ⟨w :: ws, .cons ⟨m, hw⟩ hws⟩

/-- Either every line is an instruction's, or the text has a first line that fails. -/
theorem instrs_or_first_failure (ls : List Line) :
    (∃ is : List Instr, (∀ i ∈ is, i.canonical = true) ∧ is.map lineOf = ls) ∨
    ∃ (is : List Instr) (l : Line) (after : List Line) (e : EncError), (∀ i ∈ is, i.canonical = true) ∧
      is.map lineOf ++ l :: after = ls ∧ encodeWord l.1 l.2.1 l.2.2 = .failed e := by
  induction ls with
  | nil => exact .inl ⟨[], by simp, rfl⟩
  | cons l ls ih =>
    rcases encodeWord_cases l.1 l.2.1 l.2.2 with ⟨e, he⟩ | ⟨m, -, -, -, hw⟩
    · exact .inr ⟨[], l, ls, e, by simp, rfl, he⟩
    · obtain ⟨i, hi, rfl, -⟩ := Line.EncodesTo.exists_instr ⟨m, hw⟩
      rcases ih with ⟨is, his, rfl⟩ | ⟨is, l, after, e, his, rfl, he⟩
      · exact .inl ⟨i :: is, List.forall_mem_cons.2 ⟨hi, his⟩, rfl⟩
      · exact .inr ⟨i :: is, l, after, e, List.forall_mem_cons.2 ⟨hi, his⟩, rfl, he⟩

/-- Each line of a program ENC can write takes one step, which appends its word and its record. -/
theorem run_lines {s : State} {is : List Instr} {rest : List SourceLine} (hu : s.activeUnit = .enc)
    (hr : s.encStatus = .running) (ht : s.sourceText = is.map sourceLine ++ rest)
    (his : ∀ i ∈ is, i.canonical = true) (k : Nat) :
    Sys2Proof.core.run (is.length + k) s = Sys2Proof.core.run k (s.afterLines is rest) := by
  induction is generalizing s with
  | nil =>
    obtain rfl : s.sourceText = rest := ht
    simp [State.afterLines]
  | cons i is ih =>
    obtain ⟨hi, his⟩ := List.forall_mem_cons.1 his
    have hstep := step_sourceLine (rest := is.map sourceLine ++ rest) hu hr ht hi
    rw [List.length_cons, Nat.add_right_comm, run_succ hstep]
    refine (ih (s := (s.setSourceText (is.map sourceLine ++ rest)).appendEncoded _ _) hu hr rfl his).trans ?_
    simp [State.afterLines, recordOf]

/-- The run of a text whose lines all encode ends in the commit of their words and records. -/
theorem run_commits (s : State) {is : List Instr} (his : ∀ i ∈ is, i.canonical = true) :
    Sys2Proof.core.run ((is.map lineOf).length + 1) (s.encReset ((is.map lineOf).map Line.toSource)) =
      .next ((s.encReset ((is.map lineOf).map Line.toSource)).afterLines is []).commitEncoding := by
  have ht : (is.map lineOf).map Line.toSource = is.map sourceLine ++ [] := by simp [toSource_comp_lineOf]
  rw [List.length_map, run_lines rfl rfl ht his]
  exact run_succ (step_endOfText rfl rfl rfl) 0

/-- The run of a text with a first failing line ends in that line's failure. -/
theorem run_fails (s : State) {is : List Instr} {l : Line} (after : List Line) {e : EncError}
    (his : ∀ i ∈ is, i.canonical = true) (he : encodeWord l.1 l.2.1 l.2.2 = .failed e) :
    Sys2Proof.core.run ((is.map lineOf ++ l :: after).length + 1)
        (s.encReset ((is.map lineOf ++ l :: after).map Line.toSource)) =
      .next (((s.encReset ((is.map lineOf ++ l :: after).map Line.toSource)).afterLines is
        (after.map Line.toSource)).failEncoding e) := by
  have ht : (is.map lineOf ++ l :: after).map Line.toSource =
      is.map sourceLine ++ l.toSource :: after.map Line.toSource := by simp [toSource_comp_lineOf]
  have hlen : (is.map lineOf ++ l :: after).length + 1 = is.length + (after.length + 1 + 1) := by
    simp [Nat.add_assoc]
  rw [hlen, run_lines rfl rfl ht his, run_succ ((step_line rfl rfl rfl).trans (encLine_of_failed rfl he))]
  exact run_failEncoding rfl e _

theorem recordOf_A {i : Instr} (hi : i.canonical = true) : (recordOf i).A = (encode i).toNat % 128 := by
  have hA := opc_lt i.mnemonic
  have hrec : (recordOf i).A = opc i.mnemonic := rfl
  rw [encode_toNat_of_canonical hi]
  omega

/-- Settles O55: the run ends in the commit of the lines' words and records, or in the failure of the first line that
fails. -/
theorem encodingRunIsAllOrNothing : Obligations.EncodingRunIsAllOrNothing := by
  intro s ls
  obtain ⟨t, ht⟩ : ∃ t, Sys2Proof.core.run (ls.length + 1) (s.encReset (ls.map Line.toSource)) = .next t := by
    rcases instrs_or_first_failure ls with ⟨is, his, rfl⟩ | ⟨is, l, after, e, his, rfl, he⟩
    · exact ⟨_, run_commits s his⟩
    · exact ⟨_, run_fails s after his he⟩
  refine ⟨t, ht, fun ws hws => ?_, ?_⟩
  · obtain ⟨is, his, rfl, rfl⟩ := exists_instrs_of_encodesTo hws
    cases ht.symm.trans (run_commits s his)
    refine ⟨rfl, is.map recordOf, rfl, ?_, ?_⟩
    · rw [List.forall₂_map_left_iff, List.forall₂_map_right_iff, List.forall₂_same]
      exact fun i _ => ⟨rfl, rfl, rfl⟩
    · rw [List.forall₂_map_left_iff, List.forall₂_map_right_iff, List.forall₂_same]
      exact fun i hi => ⟨rfl, recordOf_A (his i hi)⟩
  · rintro before l after e rfl hbefore he
    obtain ⟨ws, hws⟩ := exists_words_of_encode hbefore
    obtain ⟨is, his, rfl, -⟩ := exists_instrs_of_encodesTo hws
    cases ht.symm.trans (run_fails s after his he)
    exact ⟨rfl, rfl, rfl, rfl, rfl⟩

end Sys2Proof.Machine
end

section
/-! PROOFS. The decoder (spec/42_decoder.md): the two maps between words and their bytes, DEC's outputs for a word that is
an instruction, encoding after decoding, and what stops a step. -/

namespace Sys2Proof.Machine

/-! ### Words and their bytes (R32, R68, R96) -/

theorem bytesOfWord_b0_toNat (w : Word) : (bytesOfWord w).b0.toNat = w.toNat % 2 ^ 8 :=
  (bitField_eq w 0 8).trans (by rw [Nat.pow_zero, Nat.div_one])

theorem bytesOfWord_b1_toNat (w : Word) : (bytesOfWord w).b1.toNat = w.toNat / 2 ^ 8 % 2 ^ 8 :=
  bitField_eq w 8 8

theorem bytesOfWord_b2_toNat (w : Word) : (bytesOfWord w).b2.toNat = w.toNat / 2 ^ 16 % 2 ^ 8 :=
  bitField_eq w 16 8

/-- The bytes of the little-endian number of five bytes are those five: each is the number's digit to base 256. -/
theorem bytesOfWord_wordOfBytes (x : WordBytes) : bytesOfWord (wordOfBytes x) = x := by
  have hw := wordOfBytes_toNat x
  have h0 := x.b0.isLt
  have h1 := x.b1.isLt
  have h2 := x.b2.isLt
  have h3 := x.b3.isLt
  have h4 := x.b4.isLt
  rw [WordBytes.mk.injEq (bytesOfWord _).b0]
  refine ⟨?_, ?_, ?_, ?_, ?_⟩ <;> apply BitVec.eq_of_toNat_eq
  · rw [bytesOfWord_b0_toNat]; omega
  · rw [bytesOfWord_b1_toNat]; omega
  · rw [bytesOfWord_b2_toNat]; omega
  · rw [bytesOfWord_b3_toNat]; omega
  · rw [bytesOfWord_b4_toNat]; omega

/-- Settles O31: a word is the little-endian number of its bytes, and byte `k` is that number's digit `k` to base 256. -/
theorem wordsAreLittleEndian : Obligations.WordsAreLittleEndian := by
  refine ⟨fun x => ⟨bytesOfWord_wordOfBytes x, wordOfBytes_toNat x⟩, fun w => ⟨wordOfBytes_bytesOfWord w,
    bytesOfWord_b0_toNat w, bytesOfWord_b1_toNat w, bytesOfWord_b2_toNat w, bytesOfWord_b3_toNat w, ?_⟩⟩
  have hlt : w.toNat < 2 ^ 40 := w.isLt
  rw [bytesOfWord_b4_toNat]
  omega

/-! ### DEC's outputs for an instruction (R97 to R101) -/

/-- Settles O38: the operands are fields of 7 and 14 bits. -/
theorem decodedInstructionsAreWellFormed : Obligations.DecodedInstructionsAreWellFormed :=
  fun _ _ => wf_of_decodeInstr

/-- A word that decodes to an instruction makes DEC output its opcode and its operands, and `known` (R97 to R100). -/
theorem decode_eq_of_decodeInstr {x : WordBytes} {i : Instr} (h : decodeInstr x = .ok i) :
    decode x = ⟨opc i.mnemonic, i.opB, i.opC, true⟩ := by
  obtain ⟨hA, hB, hC⟩ := decodeInstr_eq_ok.1 h
  simp only [decode, hA, hB, hC, mnemonicOfOpcode_opc, Option.isSome_some]

/-- Settles O51: the line's word is that of a canonical instruction, which DEC delivers from it. -/
theorem decoderRecoversEncodedLines : Obligations.DecoderRecoversEncodedLines := by
  intro m b c hb hc
  have hfit : b < 128 ∧ c < 2 ^ encWidthC m := ⟨by omega, hc⟩
  refine ⟨encode (.ofMnemonic m b c), (encodeWord_text m b c).trans (if_pos hfit), ?_⟩
  simpa using decode_eq_of_decodeInstr (decodeInstr_encode (ofMnemonic_canonical_iff.2 hfit))

/-! ### Encoding what was decoded (R53, R104) -/

/-- Encoding what a word decodes to clears the bits that DEC ignores and keeps the others. -/
theorem encode_toNat_of_decodeWord {w : Word} {i : Instr} (h : decodeWord w = .ok i) :
    (encode i).toNat = w.toNat % 2 ^ 28 := by
  obtain ⟨hwf, hw⟩ := decodeWord_eq_ok.1 h
  rw [encode_toNat hwf, hw]

/-- Encoding gives a decoded word back exactly when it has none of the bits that DEC ignores. -/
theorem encode_eq_of_decodeWord_iff {w : Word} {i : Instr} (h : decodeWord w = .ok i) :
    encode i = w ↔ w.toNat < 2 ^ 28 := by
  rw [← BitVec.toNat_inj, encode_toNat_of_decodeWord h]
  omega

theorem encodeWord_of_not_canonical {i : Instr} (h : i.canonical = false) :
    encodeWord i.mnemonic.text i.opB i.opC = .failed .fieldOverflow :=
  (encodeWord_text ..).trans (if_neg (by rw [← i.canonical_iff, h]; decide))

/-- Settles O52: ENC accepts the line of a canonical instruction only, and its word is the decoded one without the bits
that DEC ignores. -/
theorem reencodingGivesCanonicalWordsBack : Obligations.ReencodingGivesCanonicalWordsBack := by
  intro w i h
  refine ⟨?_, fun hc => ⟨encode i, encodeWord_of_canonical hc, encode_toNat_of_decodeWord h⟩,
    encodeWord_of_not_canonical⟩
  cases hc : i.canonical with
  | true => simp [encodeWord_of_canonical hc, encode_eq_of_decodeWord_iff h]
  | false => simp [encodeWord_of_not_canonical hc]

/-! ### What stops a step (R18, R75, R76, R102, R105) -/

/-- The executor's turn always answers a next state, since DEC and every instruction are total. -/
theorem exists_exuStep_eq_next (s : State) : ∃ t, exuStep s = .next t := by
  rcases exuStep_cases s with ⟨-, he⟩ | ⟨-, -, he⟩ | ⟨-, x, -, ⟨r, -, he⟩ | ⟨i, -, hi⟩⟩
  · exact ⟨_, he⟩
  · exact ⟨_, he⟩
  · exact ⟨_, he⟩
  · rcases hi with ⟨a, -, -, he⟩ | ⟨e, -, -, -, he⟩ | ⟨v, e, -, -, -, -, -, he⟩ <;> exact ⟨_, he⟩

/-- The encoder's turn answers a next state, or refuses a malformed line while it runs. -/
theorem encStep_next_or_malformed (s : State) :
    (∃ t, encStep s = .next t) ∨ (s.encStatus = .running ∧
      ∃ text rest, s.sourceText = .malformed text :: rest ∧ encStep s = .refused (.malformedLine text)) := by
  rcases encStep_cases s with ⟨-, he⟩ | ⟨-, -, he⟩ | hm | ⟨-, token, b, c, rest, -, hl⟩
  · exact .inl ⟨_, he⟩
  · exact .inl ⟨_, he⟩
  · exact .inr hm
  · rcases hl with ⟨e, -, he⟩ | ⟨m, -, -, -, he⟩ <;> exact .inl ⟨_, he⟩

/-- Settles O17: the executor's turn never stops, and the encoder's stops at a malformed line only. -/
theorem stepStopsOnlyAtMalformedLines : Obligations.StepStopsOnlyAtMalformedLines := by
  intro s
  cases hu : s.activeUnit with
  | exu =>
    rw [step_exu hu]
    exact .inl (exists_exuStep_eq_next s)
  | enc =>
    rw [step_enc hu]
    exact (encStep_next_or_malformed s).imp_right fun hm => ⟨rfl, hm⟩

end Sys2Proof.Machine
end

section
/-! PROOFS. The executor (spec/43_executor.md): what each instruction does where its addresses name cells, the fault where
one does not, one turn of the loop, the end of every run, its dependence on the stream alone, and its result. -/

namespace Sys2Proof.Machine

/-! ### The fault at the first address that names no cell (R110, R136) -/

theorem firstOffending_of_usedAddresses {i : Instr} {s : State} {a : Nat} {before after : List Nat}
    (hused : usedAddresses i s = before ++ a :: after) (hbefore : ∀ a' ∈ before, a' < 50) (ha : 50 ≤ a) :
    firstOffending i s = some a := by
  have hnone : before.find? (fun a => decide (Config.memSize ≤ a)) = none := by simpa using hbefore
  rw [firstOffending, hused, List.find?_append, hnone, Option.none_or, List.find?_cons_of_pos (by simpa using ha)]

/-- An address of 50 or more faults when all that the instruction checks before it are in range. -/
theorem exec_faults {i : Instr} {s : State} {a : Nat} (before : List Nat) {after : List Nat}
    (hused : usedAddresses i s = before ++ a :: after) (hbefore : ∀ a' ∈ before, a' < 50) (ha : 50 ≤ a) :
    exec i s = .next (s.takeFault (.addressFault a)) :=
  exec_of_firstOffending (firstOffending_of_usedAddresses hused hbefore ha)

/-! ### The instructions where every address names a cell (R112 to R116) -/

section
variable {b c : Nat} {s : State}

theorem exec_loadConst (hb : b < 50) :
    exec (.loadConst b c) s = .next ((s.writeCell b c).appendTrace (.loadConst b c)) := by
  simp only [exec, execLoadConst, directCell_inRange hb, immediate]

theorem exec_readMem (hc : c < 50) (hp : s.mem.read c < 50) (hb : b < 50) :
    exec (.readMem b c) s = .next ((s.writeCell b (s.mem.read (s.mem.read c))).appendTrace
      (.readMem b c (s.mem.read c) (s.mem.read (s.mem.read c)))) := by
  simp only [exec, execReadMem, indirectCell_inRange hc hp, directCell_inRange hb]

theorem exec_writeMem (hc : c < 50) (hb : b < 50) :
    exec (.writeMem b c) s = .next ((s.writeCell b (s.mem.read c)).appendTrace (.writeMem b c (s.mem.read c))) := by
  simp only [exec, execWriteMem, directCell_inRange hc, directCell_inRange hb]

theorem exec_mod_of_ne_zero (hc : c < 50) (hb : b < 50) (hdiv : s.mem.read c ≠ 0) :
    exec (.mod b c) s = .next ((s.writeCell b (s.mem.read b % s.mem.read c)).appendTrace
      (.mod b c (s.mem.read b) (s.mem.read c) (s.mem.read b % s.mem.read c))) := by
  simp only [exec, execMod, directCell_inRange hc, directCell_inRange hb, divisorIsZero_iff, if_neg hdiv]

theorem exec_mod_of_eq_zero (hc : c < 50) (hb : b < 50) (hdiv : s.mem.read c = 0) :
    exec (.mod b c) s = .next (s.appendTrace (.modDivZero b c)) := by
  simp only [exec, execMod, directCell_inRange hc, directCell_inRange hb, divisorIsZero_iff, if_pos hdiv]

end

/-- Settles O7: the addresses are checked in order before anything else, and in range each instruction traces its own
event. -/
theorem firstOffendingAddressFaults : Obligations.FirstOffendingAddressFaults := by
  refine fun i s => ⟨fun a => exec_of_firstOffending, fun h => ?_⟩
  cases i with
  | loadConst b c =>
    exact ⟨_, _, exec_loadConst (h b (List.mem_singleton_self b)), rfl, rfl, rfl⟩
  | readMem b c =>
    obtain ⟨hc, hp, hb⟩ : c < 50 ∧ s.mem.read c < 50 ∧ b < 50 := by simpa [usedAddresses] using h
    exact ⟨_, _, exec_readMem hc hp hb, rfl, rfl, rfl⟩
  | writeMem b c =>
    obtain ⟨hc, hb⟩ : c < 50 ∧ b < 50 := by simpa [usedAddresses] using h
    exact ⟨_, _, exec_writeMem hc hb, rfl, rfl, rfl⟩
  | mod b c =>
    obtain ⟨hc, hb⟩ : c < 50 ∧ b < 50 := by simpa [usedAddresses] using h
    by_cases hdiv : s.mem.read c = 0
    · exact ⟨_, _, exec_mod_of_eq_zero hc hb hdiv, rfl, rfl, rfl⟩
    · exact ⟨_, _, exec_mod_of_ne_zero hc hb hdiv, rfl, rfl, rfl⟩

/-! ### The effect of a write (R37, R111) -/

/-- An instruction that writes one cell of a canonical memory and traces its event does that and nothing else. -/
theorem exists_written_and_traced {i : Instr} {s : State} {b v : Nat} {e : TraceEvent} (hwf : s.mem.wf = true)
    (h : exec i s = .next ((s.writeCell b v).appendTrace e)) :
    ∃ t, exec i s = .next t ∧ t.mem.read b = v ∧ (∀ a, a ≠ b → t.mem.read a = s.mem.read a) ∧
      t.trace = s.trace ++ [e] ∧ t = { s with mem := t.mem, trace := t.trace } :=
  ⟨_, h, Memory.read_write_self hwf b v, fun _ ha => Memory.read_write_other s.mem v ha, rfl, rfl⟩

/-- Writing what a cell already holds leaves a canonical memory as it is. -/
theorem Memory.write_read_self {m : Memory} (hwf : m.wf = true) {a : Nat} (ha : a < 50) : m.write a (m.read a) = m := by
  refine Memory.ext_read (Memory.write_wf hwf _ ha) hwf fun a' => ?_
  rw [Memory.read_write hwf]
  split
  · next h => rw [h]
  · rfl

/-- Settles O1: `b` is the only address checked, and the constant is written there. -/
theorem loadConstWritesItsConstant : Obligations.LoadConstWritesItsConstant :=
  fun _ _ _ hwf => ⟨fun hb => exists_written_and_traced hwf (exec_loadConst hb), exec_faults [] rfl nofun, rfl⟩

/-- Settles O2: the checks are those of `usedAddresses`, and in range the pointed-to content is written. -/
theorem readMemFollowsThePointer : Obligations.ReadMemFollowsThePointer := by
  intro b c s hwf
  refine ⟨fun hc hp hb => exists_written_and_traced hwf (exec_readMem hc hp hb), exec_faults [] rfl nofun,
    fun hc => ?_, fun hc hp => ?_⟩
  · exact exec_faults [c] rfl (by simpa using hc)
  · exact exec_faults [c, s.mem.read c] rfl (by simpa using ⟨hc, hp⟩)

/-- Settles O3: the checks are those of `usedAddresses`, and in range the content of `c` is written to `b`. -/
theorem writeMemCopiesFromCToB : Obligations.WriteMemCopiesFromCToB := by
  intro b c s hwf
  refine ⟨fun hc hb => exists_written_and_traced hwf (exec_writeMem hc hb), exec_faults [] rfl nofun, fun hc => ?_⟩
  exact exec_faults [c] rfl (by simpa using hc)

/-- Settles O4: the value written is the remainder of the quotient `old / div`. -/
theorem modWritesTheRemainder : Obligations.ModWritesTheRemainder := by
  intro b c s hwf
  refine ⟨fun hc hb hdiv => ?_, exec_faults [] rfl nofun, fun hc => exec_faults [c] rfl (by simpa using hc)⟩
  obtain ⟨t, he, hres, hother, htrace, hframe⟩ := exists_written_and_traced hwf (exec_mod_of_ne_zero hc hb hdiv)
  rw [← hres] at htrace
  refine ⟨t, he, ⟨s.mem.read b / s.mem.read c, ?_⟩, ?_, hother, htrace, hframe⟩
  · rw [hres, Nat.div_add_mod]
  · rw [hres]
    exact Nat.mod_lt _ (Nat.pos_of_ne_zero hdiv)

/-- Settles O5: the address checks come before the test of the divisor, which leads to the marker alone. -/
theorem modByZeroOnlyTracesTheMarker : Obligations.ModByZeroOnlyTracesTheMarker :=
  fun _ c _ hdiv => ⟨fun hc hb => exec_mod_of_eq_zero hc hb hdiv, exec_faults [] rfl nofun,
    fun hc => exec_faults [c] rfl (by simpa using hc)⟩

/-- Settles O6: the values written are computed from the memory before the write; where that value is the destination's
own content, the write changes nothing. -/
theorem repeatedAddressesReadOldContents : Obligations.RepeatedAddressesReadOldContents := by
  intro b c s hwf hb hc
  refine ⟨fun hdiv => ?_, fun hp => ?_, ?_⟩
  · obtain ⟨t, he, hres, -, htrace, -⟩ := exists_written_and_traced hwf (exec_mod_of_ne_zero hb hb hdiv)
    rw [Nat.mod_self] at hres htrace
    exact ⟨t, he, hres, htrace⟩
  · have he := exec_readMem hc (hp ▸ hb) hb
    rw [hp] at he
    exact ⟨_, he, Memory.write_read_self hwf hb, rfl⟩
  · exact ⟨_, exec_writeMem hb hb, Memory.write_read_self hwf hb, rfl⟩

/-! ### One turn of the loop (R106 to R109, R117, R118) -/

theorem runWord_error {x : WordBytes} {r : DecodeReject} (h : decodeInstr x = .error r) (s : State) :
    runWord x s = .next (s.appendDlog (decodeRecord x)) := by
  simp only [runWord, h]

theorem decodeRecord_eq (x : WordBytes) :
    decodeRecord x = ⟨x, (wordOfBytes x).toNat % 128, (wordOfBytes x).toNat / 128 % 128,
      (wordOfBytes x).toNat / 16384 % 16384⟩ := by
  obtain ⟨hA, hB, hC⟩ := decodeRecord_fields x
  rw [← hA, ← hB, ← hC]
  rfl

/-- Settles O10: the step is the instruction in the advanced state, and then the record unless it faulted. -/
theorem stepRunsTheDecodedInstruction : Obligations.StepRunsTheDecodedInstruction := by
  intro s t x i hu hr hf hd he
  have hstep : step s = logAfter x (.next t) := by
    rw [step_exu hu, exuStep_fetched hr hf, runWord_ok hd]
    exact congrArg (logAfter x) he
  refine ⟨wf_of_decodeInstr hd, ?_⟩
  rw [hstep, ← decodeRecord_eq]
  cases hfault : isFaulted t.exuStatus with
  | true => exact logAfter_faulted hfault
  | false => exact logAfter_running hfault

/-- Settles O11: no mnemonic has the opcode, so the word is logged and nothing is executed. -/
theorem unrecognisedOpcodeIsLoggedAndSkipped : Obligations.UnrecognisedOpcodeIsLoggedAndSkipped := by
  intro s x hu hr hf h121 h18 h44 h4
  have hnone : mnemonicOfOpcode (opcodeField (wordOfBytes x)) = none := by
    rw [opcodeField_eq, ← Option.not_isSome_iff_eq_none, mnemonicOfOpcode_isSome]
    omega
  rw [step_exu hu, exuStep_fetched hr hf, runWord_error (decodeInstr_eq_error.2 ⟨hnone, rfl⟩), decodeRecord_eq]
  rfl

/-- Settles O13: the fetch finds no word exactly where fewer than five bytes are left, and a word that is run never
halts. -/
theorem exhaustedStreamHalts : Obligations.ExhaustedStreamHalts := by
  refine fun s hu hr => ⟨fun hlen => ?_, fun t ht hhalt => ?_⟩
  · rw [step_exu hu]
    exact exuStep_exhausted hr (fetch_eq_none.2 hlen)
  · cases step_exu_turn hu ht with
    | idle hn => exact absurd hr hn
    | exhausted _ hf => exact fetch_eq_none.1 hf
    | fetched _ _ hw => exact absurd hhalt (hw.not_halted hr)

/-! ### Every run ends (R124, R159) -/

theorem ExuTurn.activeUnit_eq {s t : State} (h : ExuTurn s t) : t.activeUnit = s.activeUnit := by
  rw [h.frame]
  rfl

theorem ExuTurn.reportRange_eq {s t : State} (h : ExuTurn s t) : t.reportRange = s.reportRange := by
  rw [h.frame]
  rfl

theorem run_stream_eq {s t : State} {k : Nat} (h : Sys2Proof.core.run k s = .next t) : t.stream = s.stream :=
  run_keeps (P := fun u => u.stream = s.stream)
    (step_keeps_of_exuTurn (fun _ _ hs => hs) fun _ _ hs hturn => hturn.stream_eq.trans hs) rfl h

theorem run_reportRange_eq {s t : State} {k : Nat} (h : Sys2Proof.core.run k s = .next t) :
    t.reportRange = s.reportRange :=
  run_keeps (P := fun u => u.reportRange = s.reportRange)
    (step_keeps_of_exuTurn (fun _ _ hs => hs) fun _ _ hs hturn => hturn.reportRange_eq.trans hs) rfl h

/-- `k` steps stop a run with fewer than `5 * k` bytes left: each step takes five of them, or the run has stopped. -/
theorem exists_run_not_running {s : State} {k : Nat} (hu : s.activeUnit = .exu)
    (hk : s.stream.length - s.pc < 5 * k) :
    ∃ t, Sys2Proof.core.run k s = .next t ∧ t.exuStatus ≠ .running := by
  induction k generalizing s with
  | zero => omega
  | succ k ih =>
    obtain ⟨t, ht⟩ := exists_exuStep_eq_next s
    rw [← step_exu hu] at ht
    rw [run_succ ht]
    cases step_exu_turn hu ht with
    | idle hr => exact ⟨s, run_stays ht k, hr⟩
    | exhausted => exact ⟨s.halt, terminalStatesAreNeverLeft _ k (.inl ⟨hu, nofun⟩), nofun⟩
    | fetched hr hf hw =>
      have hturn : ExuTurn s t := .fetched hr hf hw
      have hbound := fetch_bound hf
      have hpc : t.pc = s.pc + 5 := hw.pc_eq
      refine ih (hturn.activeUnit_eq.trans hu) ?_
      rw [hturn.stream_eq]
      omega

/-- Settles O27: a run stops when its bytes are used up, and the invariants of `pc` and of the decode log say where. -/
theorem everyExecutionRunEnds : Obligations.EveryExecutionRunEnds := by
  intro s S first last
  obtain ⟨hpc₀, -, -, hlog₀, -⟩ := executor_invariants_exuReset s S first last
  have hbytes : S.length - 0 < 5 * (S.length / 5 + 1) := by omega
  obtain ⟨t, hrun, hstop⟩ := exists_run_not_running (s := s.exuReset S first last) rfl hbytes
  obtain ⟨hmod, hle, hhalt⟩ := run_keeps stepKeepsPcInv hpc₀ hrun
  obtain ⟨hlog, -⟩ := run_keeps stepKeepsDecodeLogInv hlog₀ hrun
  rw [show t.stream = S from run_stream_eq hrun] at hle hhalt
  refine ⟨t, hrun, hstop, by omega, fun h => ?_⟩
  have hleft := hhalt h
  have hcount : t.pc = 5 * t.dlog.length := by simpa [h, isFaulted] using hlog
  omega

/-! ### A run depends on its stream alone (R26, R124) -/

/-- An instruction does to the executor's items what it does to them in any other state. -/
theorem exec_withExecutorOf (i : Instr) (r s : State) :
    ∃ t, exec i s = .next t ∧ exec i (r.withExecutorOf s) = .next (r.withExecutorOf t) := by
  rcases exec_congr_mem i (show s.mem = (r.withExecutorOf s).mem from rfl) with
    ⟨a, he, he'⟩ | ⟨e, he, he'⟩ | ⟨v, e, he, he'⟩
  · exact ⟨_, he, he'⟩
  · exact ⟨_, he, he'⟩
  · exact ⟨_, he, he'⟩

theorem runWord_withExecutorOf (x : WordBytes) (r s : State) :
    ∃ t, runWord x s = .next t ∧ runWord x (r.withExecutorOf s) = .next (r.withExecutorOf t) := by
  cases hd : decodeInstr x with
  | error e => exact ⟨_, runWord_error hd s, runWord_error hd _⟩
  | ok i =>
    obtain ⟨t, he, he'⟩ := exec_withExecutorOf i r s
    rw [runWord_ok hd, runWord_ok hd, he, he']
    cases hf : isFaulted t.exuStatus with
    | true => exact ⟨t, logAfter_faulted hf, logAfter_faulted hf⟩
    | false => exact ⟨_, logAfter_running hf, logAfter_running hf⟩

/-- One turn does to the executor's items what it does to them in any other state with the same stream. -/
theorem exuStep_withExecutorOf {r s : State} (hS : r.stream = s.stream) :
    ∃ t, exuStep s = .next t ∧ exuStep (r.withExecutorOf s) = .next (r.withExecutorOf t) := by
  by_cases hr : s.exuStatus = .running
  · have hr' : (r.withExecutorOf s).exuStatus = .running := hr
    have hf' : fetch (r.withExecutorOf s).stream (r.withExecutorOf s).pc = fetch s.stream s.pc :=
      congrArg (fetch · s.pc) hS
    cases hf : fetch s.stream s.pc with
    | none => exact ⟨_, exuStep_exhausted hr hf, exuStep_exhausted hr' (hf'.trans hf)⟩
    | some x =>
      rw [exuStep_fetched hr hf, exuStep_fetched hr' (hf'.trans hf)]
      exact runWord_withExecutorOf x r s.advancePc
  · exact ⟨s, exuStep_terminal hr, exuStep_terminal hr⟩

theorem run_withExecutorOf {r s t : State} {k : Nat} (hr : r.activeUnit = .exu) (hu : s.activeUnit = .exu)
    (hS : r.stream = s.stream) (h : Sys2Proof.core.run k s = .next t) :
    Sys2Proof.core.run k (r.withExecutorOf s) = .next (r.withExecutorOf t) := by
  induction k generalizing s with
  | zero =>
    cases h
    rfl
  | succ k ih =>
    obtain ⟨u, he, he'⟩ := exuStep_withExecutorOf hS
    have hturn := exuStep_turn he
    rw [run_succ ((step_exu hu).trans he)] at h
    rw [run_succ ((step_exu (s := r.withExecutorOf s) hr).trans he')]
    exact ih (hturn.activeUnit_eq.trans hu) (hS.trans hturn.stream_eq.symm) h

theorem exuResult_withExecutorOf {r s : State} (h : r.reportRange = s.reportRange) :
    (r.withExecutorOf s).exuResult = s.exuResult := by
  simp only [State.exuResult, State.withExecutorOf, h]

/-- Settles O28: the second run is the first with the second state's other items, which no turn reads. -/
theorem executionDependsOnTheStreamAlone : Obligations.ExecutionDependsOnTheStreamAlone := by
  intro s₁ s₂ t₁ t₂ S f₁ l₁ f₂ l₂ k h₁ h₂
  have hstart : (s₂.exuReset S f₂ l₂).withExecutorOf (s₁.exuReset S f₁ l₁) = s₂.exuReset S f₂ l₂ := rfl
  have hrun := run_withExecutorOf (r := s₂.exuReset S f₂ l₂) (s := s₁.exuReset S f₁ l₁) rfl rfl rfl h₁
  rw [hstart] at hrun
  cases hrun.symm.trans h₂
  refine ⟨rfl, rfl, rfl, rfl, rfl, fun hf hl => (exuResult_withExecutorOf ?_).symm⟩
  rw [run_reportRange_eq h₁, hf, hl]
  rfl

/-! ### The result (R105, R120) -/

theorem length_memorySlice (m : Memory) (first last : Nat) : (memorySlice m first last).length = last - first := by
  simp [memorySlice]

theorem getElem?_memorySlice (m : Memory) {first last k : Nat} (h : k < last - first) :
    (memorySlice m first last)[k]? = some (m.read (first + k)) := by
  simp [memorySlice, h]

theorem exuResult_of_not_halted {s : State} (h : s.exuStatus ≠ .halted) : s.exuResult = .error .noResult := by
  cases hs : s.exuStatus with
  | halted => exact absurd hs h
  | running | faulted => simp only [State.exuResult, hs]

theorem exuResult_of_halted {s : State} {first last : Nat} (hrange : s.reportRange = (first, last))
    (h : s.exuStatus = .halted) :
    s.exuResult = if first ≤ last ∧ last ≤ 50 then .ok ⟨memorySlice s.mem first last, s.dlog, s.trace⟩
      else .error (.reportRangeOutside first last) := by
  simp only [State.exuResult, h, hrange]

/-- Settles O29: the result of a halted run is decided by its range, and its memory is the slice of that range. -/
theorem resultIsTheRequestedSlice : Obligations.ResultIsTheRequestedSlice := by
  refine fun s first last hrange => ⟨fun hh hle hlast => ?_, fun hh hout => ?_, exuResult_of_not_halted⟩
  · exact ⟨_, (exuResult_of_halted hrange hh).trans (if_pos ⟨hle, hlast⟩), length_memorySlice ..,
      fun k hk => getElem?_memorySlice s.mem hk, rfl, rfl⟩
  · exact (exuResult_of_halted hrange hh).trans (if_neg (by omega))

end Sys2Proof.Machine
end
